-- ==== Sys2Proof/Word.lean ====
section
/-!
DEFINITION. The one data word of the block: a byte.

Every datum of the block is one byte, 0..255, unsigned (spec/00_scope.md R14, spec/20_memory.md R38): there is no wider
register, no signed reading and no multi-byte integer in the data path. Indices, counts and lengths are natural numbers
without bound (spec/44_operation_laws.md R115), so they are `Nat`.
-/
namespace Sys2Proof

/-- A channel byte or a waveform byte (spec/00_scope.md R14). -/
abbrev Byte := BitVec 8

end Sys2Proof
end

