-- ==== Sys2Proof/Config.lean ====
section
/-!
DEFINITION. What is fixed before reset and never changes while the block runs (spec/00_scope.md R8 to R13,
spec/10_state.md R32), and the free values: what the spec leaves to the environment or leaves unspecified.
-/
namespace Sys2Proof

/-- A waveform pattern: exactly 2 bytes, `fst` transmitted first (spec/00_scope.md R10). -/
structure Pattern where
  fst : Byte
  snd : Byte
  deriving DecidableEq, Repr, Inhabited

/-- The two bytes of a pattern in transmission order (spec/30_encoding.md R50). -/
def Pattern.bytes (p : Pattern) : List Byte := [p.fst, p.snd]

/-- The configuration (spec/10_state.md R32). `busHz` and `spiBitNs` are informative: no operation reads them
(spec/00_scope.md R11). -/
structure Config where
  /-- `M`, channels per node (R8). -/
  m : Nat
  /-- `NODES`, nodes in the LED Buffer (R8). -/
  nodes : Nat
  /-- `WS_ONE_BYTES` (R10). -/
  one : Pattern
  /-- `WS_ZERO_BYTES` (R10). -/
  zero : Pattern
  /-- `PAD`, the leading padding of a frame (R12). -/
  pad : List Byte
  /-- `BUS_HZ`, informative (R11). -/
  busHz : Nat
  /-- `SPI_BIT_NS`, informative (R11). -/
  spiBitNs : Nat
  deriving DecidableEq, Repr

/-- `BITS_PER_PX`, bits per channel byte (spec/00_scope.md R9). -/
def bitsPerPx : Nat := 8

/-- `SPI_BYTES_PER_BIT`, waveform bytes per protocol bit (spec/00_scope.md R9). -/
def spiBytesPerBit : Nat := 2

/-- `PX_LEN`, waveform bytes per channel byte (spec/00_scope.md R9). -/
def pxLen : Nat := spiBytesPerBit * bitsPerPx

/-- `N = NODES * M`, channel values in the LED Buffer (spec/00_scope.md R8). -/
def Config.ledLen (cfg : Config) : Nat := cfg.nodes * cfg.m

/-- `PAD_LEN` (spec/00_scope.md R12). -/
def Config.padLen (cfg : Config) : Nat := cfg.pad.length

/-- `NODE_LEN`, bytes of an encoded node (spec/00_scope.md R13). -/
def Config.nodeLen (cfg : Config) : Nat := cfg.m * pxLen

/-- The length of a transmission buffer sized for `c` channel bytes (spec/10_state.md R25). -/
def Config.bufferLen (cfg : Config) (c : Nat) : Nat := cfg.padLen + c * pxLen

/-- `FRAME_LEN`, bytes of a frame of the whole LED Buffer (spec/00_scope.md R13). -/
def Config.frameLen (cfg : Config) : Nat := cfg.bufferLen cfg.ledLen

/-- What must be true of the configuration before reset (spec/70_reset_and_hazards.md R154): `M >= 1`, `NODES >= 1`,
`ONE != ZERO`. That each pattern has 2 bytes and that `PAD` is fixed hold by the types. -/
abbrev Config.WellShaped (cfg : Config) : Prop := 1 ≤ cfg.m ∧ 1 ≤ cfg.nodes ∧ cfg.one ≠ cfg.zero

/-- What the byte framing asks of a configuration it is used with (spec/30_encoding.md R59): `FRAME_LEN < 2^32`. -/
abbrev Config.Framable (cfg : Config) : Prop := cfg.frameLen < 2 ^ 32

/-- The reference instantiation of the open parameters: `ONE`, `ZERO` and `PAD` of spec/92_eei_decisions.md D1 and D2, the
shape `M = 3`, `NODES = 3` of the source's own scenario (spec/95_test_vectors.md E6), and the reference figures of
spec/00_scope.md R11. DESIGN CHOICE (log entry 2, unsafe): the spec leaves the five parameters open; only `State.reset` and
the host's decoder probe use these values, every statement over all states holds for every configuration. -/
def Config.reference : Config where
  m := 3
  nodes := 3
  one := ⟨0xFF, 0xE0⟩
  zero := ⟨0xF8, 0x00⟩
  pad := []
  busHz := 15600000
  spiBitNs := 64

/-- The answer of the port to one `PortWrite` (spec/42_device_contract.md R88): all bytes reached the wire, or the write did
not complete after `k` of them. -/
inductive PortOutcome where
  | complete
  | failed (k : Nat)
  deriving DecidableEq, Repr, Inhabited

/-- FREE VALUE (log entry 7, safe). The answer of the port to the `n`-th free draw, where the environment's input list gives
none: the spec puts no law on the answers (spec/93_implementation_defined.md U2, U3). It has no body. -/
opaque Config.freeAnswer : Nat → PortOutcome

/-- FREE VALUE (log entry 6, safe). Payload byte `off` that the `n`-th free draw leaves in a transmission buffer `initialize`
has just sized: unspecified (spec/42_device_contract.md R90, spec/93_implementation_defined.md U9). It has no body. -/
opaque Config.freeByte : Nat → Nat → Byte

end Sys2Proof
end

