-- ==== Sys2Proof/Syntax.lean ====
section
/-!
DEFINITION. The ten operations of the block, one constructor per row of spec/opcode_table.json, with the operands of the
normative forms of spec/30_encoding.md R57: a natural number is unbounded, a byte is 0..255, a byte sequence is a list.
-/
namespace Sys2Proof

inductive Instr where
  /-- `ENC_PX v`, the Pixel Encoder (spec/40_pixel_encoder.md R70). -/
  | encPx (v : Byte)
  /-- `ENC_NODE vs`, the Node Encoder (spec/41_node_encoder.md R80). -/
  | encNode (vs : List Byte)
  /-- `DEV_INIT c`, `initialize` (spec/42_device_contract.md R90). -/
  | devInit (c : Nat)
  /-- `DEV_WRITE_RAW bytes`, `write_raw` (spec/42_device_contract.md R93). -/
  | devWriteRaw (bytes : List Byte)
  /-- `DEV_ENC_WRITE raw`, `encode_and_write` (spec/42_device_contract.md R95). -/
  | devEncWrite (raw : List Byte)
  /-- `CONSTRUCT` (spec/43_led_strip.md R106). -/
  | construct
  /-- `SET_NODE idx, vs` (spec/43_led_strip.md R107). -/
  | setNode (idx : Nat) (vs : List Byte)
  /-- `WRITE` (spec/43_led_strip.md R109). -/
  | write
  /-- `CLEAR` (spec/43_led_strip.md R110). -/
  | clear
  /-- `GET_NODE idx` (spec/43_led_strip.md R108). -/
  | getNode (idx : Nat)
  deriving DecidableEq, Repr

/-- A command as the host sends it: its bytes, the opcode first (spec/30_encoding.md R58). -/
abbrev Command := List Byte

/-- The operation an opcode names, without its operands (spec/30_encoding.md R60). -/
inductive Op where
  | encPx | encNode | devInit | devWriteRaw | devEncWrite | construct | setNode | write | clear | getNode
  deriving DecidableEq, Repr

/-- The ten operations in the order of the opcode map (spec/30_encoding.md R60). -/
def Op.all : List Op :=
  [.encPx, .encNode, .devInit, .devWriteRaw, .devEncWrite, .construct, .setNode, .write, .clear, .getNode]

/-- The operation of an instruction. -/
def Instr.op : Instr → Op
  | .encPx _ => .encPx
  | .encNode _ => .encNode
  | .devInit _ => .devInit
  | .devWriteRaw _ => .devWriteRaw
  | .devEncWrite _ => .devEncWrite
  | .construct => .construct
  | .setNode _ _ => .setNode
  | .write => .write
  | .clear => .clear
  | .getNode _ => .getNode

/-- The mnemonic of an operation (spec/30_encoding.md R57). -/
def Op.mnemonic : Op → String
  | .encPx => "ENC_PX"
  | .encNode => "ENC_NODE"
  | .devInit => "DEV_INIT"
  | .devWriteRaw => "DEV_WRITE_RAW"
  | .devEncWrite => "DEV_ENC_WRITE"
  | .construct => "CONSTRUCT"
  | .setNode => "SET_NODE"
  | .write => "WRITE"
  | .clear => "CLEAR"
  | .getNode => "GET_NODE"

/-- A byte sequence in the written form, `[a, b, c]` with decimal elements (spec/30_encoding.md R63). -/
def bytesText (bs : List Byte) : String :=
  "[" ++ String.intercalate ", " (bs.map fun b => toString b.toNat) ++ "]"

/-- The written form of an operation: its mnemonic, then its operands separated by commas (spec/30_encoding.md R63). -/
def Instr.text : Instr → String
  | .encPx v => "ENC_PX " ++ toString v.toNat
  | .encNode vs => "ENC_NODE " ++ bytesText vs
  | .devInit c => "DEV_INIT " ++ toString c
  | .devWriteRaw bytes => "DEV_WRITE_RAW " ++ bytesText bytes
  | .devEncWrite raw => "DEV_ENC_WRITE " ++ bytesText raw
  | .construct => "CONSTRUCT"
  | .setNode idx vs => "SET_NODE " ++ toString idx ++ ", " ++ bytesText vs
  | .write => "WRITE"
  | .clear => "CLEAR"
  | .getNode idx => "GET_NODE " ++ toString idx

end Sys2Proof
end

