-- ==== Sys2Proof/WellFormed.lean ====
section
/-!
DEFINITION. Which instructions the byte framing can carry under a configuration (spec/30_encoding.md R58, R59): a natural
number operand is below `2^32`, a node has exactly `M` bytes, a byte sequence has fewer than `2^32` bytes.

These are checks on the SYNTAX. An operation issued as a form that fails `NodeSized` is refused when it runs, as
`BadNodeLength` (spec/60_exceptions.md R132 row 2).
-/
namespace Sys2Proof

/-- A natural number operand the framing carries (spec/30_encoding.md R59). -/
abbrev Carried (x : Nat) : Prop := x < 2 ^ 32

/-- "exactly M entries" (spec/43_led_strip.md R107, spec/41_node_encoder.md R80). -/
abbrev NodeSized (cfg : Config) (vs : List Byte) : Prop := vs.length = cfg.m

/-- Every operand check of one instruction, as one decidable test. -/
def Instr.wellFormed (cfg : Config) : Instr → Bool
  | .encPx _ => true
  | .encNode vs => decide (NodeSized cfg vs)
  | .devInit c => decide (Carried c)
  | .devWriteRaw bytes => decide (Carried bytes.length)
  | .devEncWrite raw => decide (Carried raw.length)
  | .construct => true
  | .setNode idx vs => decide (Carried idx ∧ NodeSized cfg vs)
  | .write => true
  | .clear => true
  | .getNode idx => decide (Carried idx)

/-- The instruction is one the byte framing carries under `cfg`. -/
abbrev Instr.WellFormed (cfg : Config) (i : Instr) : Prop := i.wellFormed cfg = true

end Sys2Proof
end

