-- ==== Sys2Proof/Decode.lean ====
section
/-!
DEFINITION. The byte framing of the operations (spec/30_encoding.md Part B, R58 to R62): a decoder, total on any bytes, that
rejects by name; then an encoder written from the same tables; then the two forms in which the host asks for a decoding.

A command is ONE entry of the host's list, so its bytes are known to be all of it. Fewer bytes than the format needs are
rejected (R61). DESIGN CHOICE (log entry 13, safe): more bytes than the format has are rejected too; the spec gives such a
sequence no meaning.
-/
namespace Sys2Proof

/-- Why a byte sequence spells no operation (spec/30_encoding.md R61). -/
inductive DecodeError where
  /-- There is no opcode byte. -/
  | emptyCommand
  /-- The opcode byte is not in the opcode map. -/
  | unknownOpcode (op : Byte)
  /-- The command is shorter than its format's length. -/
  | tooShort (op : Byte)
  /-- The command is longer than its format's length (log entry 13). -/
  | tooLong (op : Byte)
  deriving DecidableEq, Repr

/-- The opcode map (spec/30_encoding.md R60). -/
def Op.code : Op → Byte
  | .encPx => 0x10
  | .encNode => 0x20
  | .devInit => 0x30
  | .devWriteRaw => 0x31
  | .devEncWrite => 0x32
  | .construct => 0x40
  | .setNode => 0x41
  | .write => 0x42
  | .clear => 0x43
  | .getNode => 0x44

/-- The operation of an opcode byte, or none: 246 opcode bytes spell no operation (spec/30_encoding.md R61). -/
def Op.ofCode? (b : Byte) : Option Op := Op.all.find? fun o => o.code == b

/-- `BE32(x)`: the four bytes of `x`, most significant first (spec/30_encoding.md R59). -/
def be32 (x : Nat) : List Byte :=
  [BitVec.ofNat 8 (x / 2 ^ 24), BitVec.ofNat 8 (x / 2 ^ 16), BitVec.ofNat 8 (x / 2 ^ 8), BitVec.ofNat 8 x]

/-- The unsigned number four bytes carry, most significant first (spec/30_encoding.md R59). -/
def be32Value (a b c d : Byte) : Nat :=
  a.toNat * 2 ^ 24 + b.toNat * 2 ^ 16 + c.toNat * 2 ^ 8 + d.toNat

/-- Read a `BE32` operand and the bytes after it. -/
def readBe32 : List Byte → Option (Nat × List Byte)
  | a :: b :: c :: d :: rest => some (be32Value a b c d, rest)
  | _ => none

/-- Read a sequence of `n` bytes and the bytes after it. -/
def readBytes (n : Nat) (bs : List Byte) : Option (List Byte × List Byte) :=
  if n ≤ bs.length then some (bs.take n, bs.drop n) else none

/-- Read the operand of format S: a length, then that many bytes (spec/30_encoding.md R58). -/
def readCounted (bs : List Byte) : Option (List Byte × List Byte) :=
  match readBe32 bs with
  | some (len, rest) => readBytes len rest
  | none => none

/-- Read the operand of format B: one byte. -/
def readByte : List Byte → Option (Byte × List Byte)
  | v :: rest => some (v, rest)
  | [] => none

/-- Read the operands of format X: an index, then a node of `m` bytes. -/
def readIndexed (m : Nat) (bs : List Byte) : Option ((Nat × List Byte) × List Byte) :=
  match readBe32 bs with
  | some (idx, rest) => (readBytes m rest).map fun r => ((idx, r.1), r.2)
  | none => none

/-- Read the operands of an operation, in its format of spec/30_encoding.md R58, and the bytes after them; none where the
bytes are too few (R61). The number of bytes of a node is the configuration's `M`, not a field of the command (R59, R62). -/
def readOperands (cfg : Config) (o : Op) (bs : List Byte) : Option (Instr × List Byte) :=
  match o with
  | .encPx => (readByte bs).map fun r => (.encPx r.1, r.2)
  | .encNode => (readBytes cfg.m bs).map fun r => (.encNode r.1, r.2)
  | .devInit => (readBe32 bs).map fun r => (.devInit r.1, r.2)
  | .devWriteRaw => (readCounted bs).map fun r => (.devWriteRaw r.1, r.2)
  | .devEncWrite => (readCounted bs).map fun r => (.devEncWrite r.1, r.2)
  | .construct => some (.construct, bs)
  | .setNode => (readIndexed cfg.m bs).map fun r => (.setNode r.1.1 r.1.2, r.2)
  | .write => some (.write, bs)
  | .clear => some (.clear, bs)
  | .getNode => (readBe32 bs).map fun r => (.getNode r.1, r.2)

/-- The decoder: the operation a command's bytes spell, or why they spell none (spec/30_encoding.md R58 to R62). -/
def decode (cfg : Config) : Command → Except DecodeError Instr
  | [] => .error .emptyCommand
  | b :: bs =>
    match Op.ofCode? b with
    | none => .error (.unknownOpcode b)
    | some o =>
      match readOperands cfg o bs with
      | some (i, []) => .ok i
      | some (_, _ :: _) => .error (.tooLong b)
      | none => .error (.tooShort b)

/-- The operand bytes of an instruction in its format (spec/30_encoding.md R58). -/
def encodeOperands : Instr → List Byte
  | .encPx v => [v]
  | .encNode vs => vs
  | .devInit c => be32 c
  | .devWriteRaw bytes => be32 bytes.length ++ bytes
  | .devEncWrite raw => be32 raw.length ++ raw
  | .construct => []
  | .setNode idx vs => be32 idx ++ vs
  | .write => []
  | .clear => []
  | .getNode idx => be32 idx

/-- The encoder: the command of an instruction, its opcode byte and then its operand bytes (spec/30_encoding.md R58). It is
meant for well-formed instructions; a number of 33 bits or more would lose its high bits. -/
def encode (i : Instr) : Command := i.op.code :: encodeOperands i

/-- The length of a command from its opcode, the configuration's `M` and, for format S, its length field `len`
(spec/30_encoding.md R58, R62). -/
def Op.commandLength (cfg : Config) (len : Nat) : Op → Nat
  | .construct | .write | .clear => 1
  | .encPx => 2
  | .encNode => 1 + cfg.m
  | .devInit | .getNode => 5
  | .devWriteRaw | .devEncWrite => 5 + len
  | .setNode => 5 + cfg.m

/-- `n` bytes: the first of `bs`, then zeros. -/
def fitTo (n : Nat) (bs : List Byte) : List Byte := bs.take n ++ List.replicate (n - bs.length) 0

/-- The length field of a command in format S, read from its bytes 1 to 4 with zeros for bytes that are not there. -/
def lengthField (bs : List Byte) : Nat :=
  match readBe32 ((fitTo 5 bs).drop 1) with
  | some (len, _) => len
  | none => 0

/-- The `k` low bytes of `w`, least significant first: byte 0 of a command is bits 7..0 of the table's number. -/
def wordBytes : Nat → Nat → List Byte
  | 0, _ => []
  | k + 1, w => BitVec.ofNat 8 w :: wordBytes k (w / 256)

/-- The command whose first `nbits` bits are `w`, numbered as spec/opcode_table.json numbers them, every later bit of it zero:
exactly as many bytes as the operation it names has. -/
def commandOfWord (cfg : Config) (nbits w : Nat) : Command :=
  let bs := wordBytes ((nbits + 7) / 8) w
  match bs with
  | [] => []
  | b :: _ =>
    match Op.ofCode? b with
    | none => bs
    | some o => fitTo (o.commandLength cfg (lengthField bs)) bs

/-- The instruction the decoder reads from a word of the opcode table, under the reference configuration, which is that of
`State.reset` (log entry 2). -/
def decodeTableWord (nbits w : Nat) : Option Instr :=
  (decode Config.reference (commandOfWord Config.reference nbits w)).toOption

end Sys2Proof
end

