-- ==== Sys2Proof/Machine/State.lean ====
section
/-!
DEFINITION. The state of the machine as plain data, the reasons a step can stop, and the state after reset.

The block's own state is the tuple of spec/10_state.md R15. Beside it stand, each marked where it stands, what the step needs
of the world around the block: the configuration, the host's list of operations, the results the host has received, and the
environment's answers.
-/
namespace Sys2Proof.Machine

/-- Who owns the Hardware Device (spec/10_state.md R19). -/
inductive Phase where
  | bare
  | owned
  deriving DecidableEq, Repr

/-- Whether the backend's own construction step succeeded (spec/10_state.md R20). -/
inductive DevOpen where
  | opened
  | openFailed
  deriving DecidableEq, Repr

/-- The one fault of the block. -/
inductive Fault where
  /-- Raised by `SET_NODE` and `GET_NODE` with `idx >= NODES` (spec/60_exceptions.md R126), which put it into the state's
  `fault`. From then on every instruction and every step answers it: nothing is performed any more (R130). Safe: the spec
  stops there too. -/
  | indexOutOfBounds (idx : Nat)
  deriving DecidableEq, Repr

/-- The forms neither the source nor the spec gives a meaning (spec/60_exceptions.md R131, R132). Every one of them is safe:
the model stops where the spec says that it must not guess. -/
inductive Refusal where
  /-- Raised by an arm of `exec` whose instruction has no meaning yet. Safe. -/
  | notModelled (mnemonic : String)
  /-- Raised by `step` for a command that spells no operation (R132 row 1). Safe. -/
  | invalidEncoding
  /-- Raised by `ENC_NODE` and `SET_NODE` with a node of other than `M` bytes (R132 row 2). Safe. -/
  | badNodeLength
  /-- Raised by `SET_NODE`, `GET_NODE`, `WRITE`, `CLEAR` in phase `Bare` (R132 row 3). Safe. -/
  | noStrip
  /-- Raised by `DEV_INIT`, `DEV_WRITE_RAW`, `DEV_ENC_WRITE` in phase `Owned` (R132 row 4). Safe. -/
  | notOwner
  /-- Raised by `CONSTRUCT` in phase `Owned` (R132 row 5). Safe. -/
  | alreadyConstructed
  /-- Raised by `DEV_INIT`, `DEV_WRITE_RAW`, `DEV_ENC_WRITE` where the device failed to open (R132 row 6). Safe. -/
  | noDevice
  /-- Raised by `DEV_WRITE_RAW`, `DEV_ENC_WRITE` before `initialize` (R132 row 7). Safe. -/
  | notInitialised
  /-- Raised by `DEV_ENC_WRITE` with other than `CAP` bytes (R132 row 8). Safe. -/
  | lengthMismatch
  /-- Raised by `step` under a configuration the spec refuses: `ONE = ZERO` (spec/93_implementation_defined.md U15), `M = 0`
  or `NODES = 0` (spec/70_reset_and_hazards.md R154), `FRAME_LEN >= 2^32` (spec/30_encoding.md R59). Log entry 15. Safe. -/
  | badConfiguration
  deriving DecidableEq, Repr

/-- One record of `WIRE` (spec/10_state.md R26): the bytes handed to the port in one `PortWrite`, and its outcome. -/
structure Transfer where
  bytes : List Byte
  outcome : PortOutcome
  deriving DecidableEq, Repr

/-- The result an operation returns to the host (spec/10_state.md R29). -/
inductive Result where
  /-- `Ok(())`. -/
  | done
  /-- `Ok(bytes)`. -/
  | bytes (bs : List Byte)
  /-- `Err(TransmissionError(L))`, `L` the attempted byte count. -/
  | transmissionError (attempted : Nat)
  /-- `Err(ConstructionError)`. -/
  | constructionError
  deriving DecidableEq, Repr

/-- The LED Buffer as address and byte pairs: addresses rising, no entry equal to 0, which an unlisted address reads as. -/
abbrev Memory := List Host.Cell

structure State where
  /-- The configuration: no state of the block, an argument of the step that no operation writes (spec/10_state.md R32; log
  entry 1). -/
  cfg : Config
  /-- `PHASE` (spec/10_state.md R19). -/
  phase : Phase
  /-- `DEV_OPEN` (spec/10_state.md R20). -/
  devOpen : DevOpen
  /-- `FAULT` (spec/10_state.md R23). -/
  fault : Option Fault
  /-- `LEDBUF` (spec/10_state.md R24). -/
  ledbuf : Memory
  /-- `INIT` (spec/10_state.md R21). -/
  init : Bool
  /-- `CAP` (spec/10_state.md R22). -/
  cap : Nat
  /-- `TXBUF` (spec/10_state.md R25). -/
  txbuf : List Byte
  /-- `WIRE`, oldest record first (spec/10_state.md R26). -/
  wire : List Transfer
  /-- The host's list of operations, as commands (spec/10_state.md R17, spec/30_encoding.md R58). -/
  program : List Command
  /-- The index of the next operation in the host's list (spec/10_state.md R17). -/
  pc : Nat
  /-- The results the host has received, oldest first. The model's own field: the block keeps no copy
  (spec/10_state.md R29; log entry 14). -/
  results : List Result
  /-- The port answers the environment will give next. The model's own field: an input list of draws
  (spec/93_implementation_defined.md U3; log entry 7). -/
  answers : List PortOutcome
  /-- How many free values have been taken. The model's own field (log entry 9). -/
  draws : Nat
  deriving DecidableEq, Repr

/-- The state after reset under a configuration and an outcome of the backend's open step (spec/10_state.md R30). `CAP` and
`LEDBUF` are unspecified there and unreachable: DESIGN CHOICE 0 and nothing listed (log entries 4 and 5, unsafe). The host's
list, the results, the input list and the counter are the model's own (log entries 9, 10, 14, 7). -/
def State.resetWith (cfg : Config) (devOpen : DevOpen) : State where
  cfg := cfg
  phase := .bare
  devOpen := devOpen
  fault := none
  ledbuf := []
  init := false
  cap := 0
  txbuf := []
  wire := []
  program := []
  pc := 0
  results := []
  answers := []
  draws := 0

/-- The machine right after reset: the reference configuration and a device that opened. DESIGN CHOICE (log entries 2 and 3,
unsafe): the spec leaves both to the environment. -/
def State.reset : State := State.resetWith Config.reference .opened

end Sys2Proof.Machine
end

