-- ==== Sys2Proof/Machine/Flags.lean ====
section
/-!
DEFINITION. The block has no flags and no condition codes: no operation sets a bit that a later one tests
(spec/10_state.md R18). What stands in their place is the result each operation returns (R29): this file says which result a
port outcome gives and how a result is framed for the host (spec/30_encoding.md R65).
-/
namespace Sys2Proof.Machine

/-- The result of a transmit operation that handed `attempted` bytes to the port: the error carries the attempted length,
never the count `K` that reached the wire (spec/42_device_contract.md R93, R94, R97). -/
def transmitResult (attempted : Nat) : PortOutcome → Result
  | .complete => .done
  | .failed _ => .transmissionError attempted

/-- The byte framing of a result: status `00` and the payload, `01` and `BE32(L)`, or `02` (spec/30_encoding.md R65). The
framing carries only numbers below `2^32` (R59); for an error with a greater count it has no bytes (log entry 16, safe). -/
def resultBytes : Result → Option (List Byte)
  | .done => some [0x00]
  | .bytes bs => some (0x00 :: bs)
  | .transmissionError len => if len < 2 ^ 32 then some (0x01 :: be32 len) else none
  | .constructionError => some [0x02]

end Sys2Proof.Machine
end

