-- ==== Sys2Proof/Machine/Operands.lean ====
section
/-!
DEFINITION. Operand forms: where a node lies in the LED Buffer, which node indices and operand lengths an operation admits.
Every operand of an operation is an immediate (spec/10_state.md R16); the one addressing mode is a node index scaled by `M`
(spec/44_operation_laws.md R118). All arithmetic is on natural numbers and never wraps (spec/44_operation_laws.md R115).
-/
namespace Sys2Proof.Machine

/-- The first byte index of node `idx`: `idx * M` (spec/10_state.md R24). -/
def nodeBase (cfg : Config) (idx : Nat) : Nat := idx * cfg.m

/-- The bound check of `SET_NODE` and `GET_NODE`: `idx >= NODES`, unsigned, neither wrapped nor clamped
(spec/20_memory.md R41, spec/44_operation_laws.md R116). -/
def indexOut (cfg : Config) (idx : Nat) : Bool := decide (cfg.nodes ≤ idx)

/-- A node operand of other than `M` bytes (spec/60_exceptions.md R132 row 2). -/
def nodeLengthBad (cfg : Config) (vs : List Byte) : Bool := decide (vs.length ≠ cfg.m)

/-- A raw operand of other than `CAP` bytes (spec/60_exceptions.md R132 row 8). -/
def rawLengthBad (cap : Nat) (raw : List Byte) : Bool := decide (raw.length ≠ cap)

end Sys2Proof.Machine
end

