-- ==== Sys2Proof/Machine/Waveform.lean ====
section
/-!
DEFINITION. The waveform encoding: from a channel byte to 16 waveform bytes, to a node, to a frame (spec/30_encoding.md
Part A, R50 to R56), and its inverse (R55).
-/
namespace Sys2Proof.Machine

/-- `bit(v, b) = (v >> (7 - b)) & 1`, the source's extraction: position `b = 0` is the most significant bit
(spec/00_scope.md R14, spec/30_encoding.md R54). -/
def bitAt (v : Byte) (b : Nat) : Byte := (v >>> (7 - b)) &&& 1

/-- `pat(x)`: `ONE` if `x = 1`, else `ZERO` (spec/00_scope.md R14). -/
def pat (cfg : Config) (x : Byte) : Pattern := if x = 1 then cfg.one else cfg.zero

/-- Format U, the encoded waveform unit of one protocol bit (spec/30_encoding.md R50). -/
def encodeUnit (cfg : Config) (x : Byte) : List Byte := (pat cfg x).bytes

/-- Format P, `EncPx(v)`: the units of positions 0 to 7 (spec/30_encoding.md R51, spec/40_pixel_encoder.md R70). -/
def encodePx (cfg : Config) (v : Byte) : List Byte :=
  (List.range bitsPerPx).flatMap fun b => encodeUnit cfg (bitAt v b)

/-- Format N, `EncNode(vs)`: the encodings of the channels in order (spec/30_encoding.md R52, spec/41_node_encoder.md R80). -/
def encodeNode (cfg : Config) (vs : List Byte) : List Byte := vs.flatMap fun v => encodePx cfg v

/-- Format F without its padding, `EncFrame(raw)`: the encodings of the raw channel bytes in order
(spec/30_encoding.md R53). -/
def encodeFrame (cfg : Config) (raw : List Byte) : List Byte := raw.flatMap fun v => encodePx cfg v

/-- The bit a unit carries, or none where the two bytes are neither `ONE` nor `ZERO` (spec/30_encoding.md R55). -/
def decodeUnit (cfg : Config) (a b : Byte) : Option Bool :=
  if (⟨a, b⟩ : Pattern) = cfg.one then some true else if (⟨a, b⟩ : Pattern) = cfg.zero then some false else none

/-- The bits of a payload, unit by unit; none where a pair is no unit or a byte is left over (spec/30_encoding.md R55). -/
def decodeUnits (cfg : Config) : List Byte → Option (List Bool)
  | [] => some []
  | [_] => none
  | a :: b :: rest =>
    match decodeUnit cfg a b, decodeUnits cfg rest with
    | some x, some xs => some (x :: xs)
    | _, _ => none

/-- The byte whose bits are `x0` to `x7`, most significant first: `sum x_b * 2^(7-b)` (spec/30_encoding.md R55). -/
def packByte (x0 x1 x2 x3 x4 x5 x6 x7 : Bool) : Byte :=
  BitVec.ofNat 8 (x0.toNat * 128 + x1.toNat * 64 + x2.toNat * 32 + x3.toNat * 16 + x4.toNat * 8 + x5.toNat * 4
    + x6.toNat * 2 + x7.toNat)

/-- The bytes of a bit sequence, eight bits a byte; none where bits are left over. -/
def packBytes : List Bool → Option (List Byte)
  | [] => some []
  | x0 :: x1 :: x2 :: x3 :: x4 :: x5 :: x6 :: x7 :: rest => (packBytes rest).map (packByte x0 x1 x2 x3 x4 x5 x6 x7 :: ·)
  | _ => none

/-- The raw channel bytes a payload encodes, or none where it is no encoding (spec/30_encoding.md R55, R56). -/
def decodePayload (cfg : Config) (payload : List Byte) : Option (List Byte) :=
  match decodeUnits cfg payload with
  | some xs => packBytes xs
  | none => none

end Sys2Proof.Machine
end

