-- ==== Sys2Proof/Machine/Ops.lean ====
section
/-!
DEFINITION. The named operations the meanings are written over: reading and writing the LED Buffer, the updates of the state,
the port primitive, taking the fault, returning a result, and the admission checks every operation makes first.
-/
namespace Sys2Proof.Machine

/-! ## The LED Buffer -/

/-- The form of a memory: addresses strictly rising and no entry equal to 0, what an unlisted address reads as. -/
abbrev Memory.wf (mem : Memory) : Prop := mem.Pairwise (fun x y => x.1 < y.1) ∧ ∀ c ∈ mem, c.2 ≠ 0

/-- `LEDBUF[a]`. What an unlisted address reads as: 0, which `CONSTRUCT` fills the buffer with (log entry 5). -/
def memGet : Memory → Nat → Byte
  | [], _ => 0
  | (k, v) :: rest, a => if k = a then v else memGet rest a

/-- A memory without the entry at `a`. -/
def memErase (mem : Memory) (a : Nat) : Memory := mem.filter fun c => decide (c.1 ≠ a)

/-- A memory with an entry put before the first greater address. -/
def memInsert (a : Nat) (b : Byte) : Memory → Memory
  | [] => [(a, b)]
  | c :: rest => if a < c.1 then (a, b) :: c :: rest else c :: memInsert a b rest

/-- `LEDBUF[a] <- b`, keeping the form of the memory: a byte equal to what an unlisted address reads as is not listed. -/
def memSet (mem : Memory) (a : Nat) (b : Byte) : Memory :=
  if b = 0 then memErase mem a else memInsert a b (memErase mem a)

/-- `MemRead(addr, n)` (spec/00_scope.md R14). -/
def memRead (mem : Memory) (addr : Nat) : Nat → List Byte
  | 0 => []
  | n + 1 => memGet mem addr :: memRead mem (addr + 1) n

/-- `MemWrite(addr, n, v)` with `n` the length of `v` (spec/00_scope.md R14). -/
def memWrite (mem : Memory) (addr : Nat) : List Byte → Memory
  | [] => mem
  | b :: bs => memWrite (memSet mem addr b) (addr + 1) bs

/-- All `N` bytes of the LED Buffer in ascending order. -/
def State.ledBytes (s : State) : List Byte := memRead s.ledbuf 0 s.cfg.ledLen

/-- Write one node: `MemWrite(idx*M, M, vs)` (spec/43_led_strip.md R107). -/
def State.storeNode (s : State) (idx : Nat) (vs : List Byte) : State :=
  { s with ledbuf := memWrite s.ledbuf (nodeBase s.cfg idx) vs }

/-- Read one node: `MemRead(idx*M, M)` (spec/43_led_strip.md R108). -/
def State.loadNode (s : State) (idx : Nat) : List Byte := memRead s.ledbuf (nodeBase s.cfg idx) s.cfg.m

/-- `LEDBUF[i] <- 0` for `i = 0 .. N-1` (spec/43_led_strip.md R106, R110). -/
def State.zeroFill (s : State) : State :=
  { s with ledbuf := memWrite s.ledbuf 0 (List.replicate s.cfg.ledLen 0) }

/-! ## Ending an operation -/

/-- The operation returns a result: the host receives it and the index moves on (spec/10_state.md R17, R29). -/
def State.returned (s : State) (r : Result) : State := { s with results := s.results ++ [r], pc := s.pc + 1 }

/-- Taking the fault: `FAULT` takes it and nothing else changes. There is no handler, no saved context and no result, and the
index stays (spec/60_exceptions.md R126, R130, R135). Nothing returns from it: only a reset clears it. -/
def State.raised (s : State) (f : Fault) : State := { s with fault := some f }

/-- The refusal of the first condition that holds, in the order given (spec/60_exceptions.md R132, R134). -/
def firstRefusal : List (Bool × Refusal) → Option Refusal
  | [] => none
  | (true, r) :: _ => some r
  | (false, _) :: rest => firstRefusal rest

/-- Admission (spec/60_exceptions.md R134): a faulted block performs nothing, then the refusals in order, then the operation's
own effect. -/
def State.whenAdmitted (s : State) (conditions : List (Bool × Refusal)) (effect : State) : Host.Outcome State Fault Refusal :=
  match s.fault with
  | some f => .fault f
  | none =>
    match firstRefusal conditions with
    | some r => .refused r
    | none => .next effect

/-- The conditions on who may call the device directly (spec/60_exceptions.md R132 rows 4 and 6). -/
def State.deviceConditions (s : State) : List (Bool × Refusal) :=
  [(decide (s.phase = .owned), .notOwner), (decide (s.devOpen = .openFailed), .noDevice)]

/-- The condition that there is no LED Strip yet (spec/60_exceptions.md R132 row 3). -/
def State.noStripYet (s : State) : Bool × Refusal := (decide (s.phase = .bare), .noStrip)

/-- The condition that the device has not been initialised (spec/60_exceptions.md R132 row 7). -/
def State.notInitYet (s : State) : Bool × Refusal := (!s.init, .notInitialised)

/-! ## The port -/

/-- A port answer as an outcome of handing over `len` bytes: `Failed(K)` with `0 <= K <= len`, every such `K` and no other
(spec/42_device_contract.md R88). -/
def clampOutcome (len : Nat) : PortOutcome → PortOutcome
  | .complete => .complete
  | .failed k => .failed (min k len)

/-- The environment's next answer: the next of its input list, and a free value where the list is empty
(spec/93_implementation_defined.md U3; log entry 7). -/
def State.nextAnswer (s : State) : PortOutcome :=
  match s.answers with
  | a :: _ => a
  | [] => Config.freeAnswer s.draws

/-- The outcome of the next `PortWrite`, of `len` bytes. -/
def State.portOutcome (s : State) (len : Nat) : PortOutcome := clampOutcome len s.nextAnswer

/-- The answer has been taken: from the list, or as one more free value. -/
def State.answered (s : State) : State :=
  match s.answers with
  | _ :: rest => { s with answers := rest }
  | [] => { s with draws := s.draws + 1 }

/-- `PortWrite(bytes)`: one record, the bytes as one port operation and its outcome, is appended to `WIRE`
(spec/42_device_contract.md R88). -/
def State.portWrite (s : State) (bytes : List Byte) : State :=
  { s.answered with wire := s.wire ++ [⟨bytes, s.portOutcome bytes.length⟩] }

/-- Transmit: exactly one `PortWrite` of all the bytes, then the result (spec/42_device_contract.md R93, R98). -/
def State.transmit (s : State) (bytes : List Byte) : State :=
  (s.portWrite bytes).returned (transmitResult bytes.length (s.portOutcome bytes.length))

/-! ## The Hardware Device -/

/-- The unspecified payload of a buffer sized for `c` channel bytes: free values (spec/42_device_contract.md R90). -/
def freePayload (draw c : Nat) : List Byte := (List.range (c * pxLen)).map fun off => Config.freeByte draw off

/-- `DevInit(c)` without its result: `CAP <- c`, `TXBUF <- PAD ++ U`, `INIT <- 1` (spec/42_device_contract.md R90). -/
def State.sized (s : State) (c : Nat) : State :=
  { s with cap := c, txbuf := s.cfg.pad ++ freePayload s.draws c, init := true, draws := s.draws + 1 }

/-- `bytes` put in place of as many bytes of `buf`, from offset `off` on. -/
def overwrite (buf : List Byte) (off : Nat) (bytes : List Byte) : List Byte :=
  buf.take off ++ bytes ++ buf.drop (off + bytes.length)

/-- The encode step of `DevEncWrite(raw)`: the encoding of raw byte `i` at `PAD_LEN + 16*i` of `TXBUF`, in order; the padding
is not rewritten (spec/42_device_contract.md R95). -/
def State.encoded (s : State) (raw : List Byte) : State :=
  { s with txbuf := overwrite s.txbuf s.cfg.padLen (encodeFrame s.cfg raw) }

/-- `DevEncWrite(raw)`: encode, then transmit the whole buffer (spec/42_device_contract.md R95). -/
def State.encodeAndWrite (s : State) (raw : List Byte) : State :=
  (s.encoded raw).transmit (s.encoded raw).txbuf

/-- `CONSTRUCT` takes ownership of the device (spec/43_led_strip.md R106). -/
def State.taken (s : State) : State := { s with phase := .owned }

end Sys2Proof.Machine
end

