-- ==== Sys2Proof/Machine/Device.lean ====
section
/-!
DEFINITION. The Hardware Device Contract (spec/42_device_contract.md): the three operations the host may issue while it owns
the device itself.
-/
namespace Sys2Proof.Machine

/-- `DEV_INIT c`: size the transmission buffer for `c` raw channel bytes (R90, R91). -/
def execDevInit (c : Nat) (s : State) : Host.Outcome State Fault Refusal :=
  s.whenAdmitted s.deviceConditions ((s.sized c).returned .done)

/-- `DEV_WRITE_RAW bytes`: one port operation with the bytes verbatim; the transmission buffer is neither read nor written
(R93, R94). -/
def execDevWriteRaw (bytes : List Byte) (s : State) : Host.Outcome State Fault Refusal :=
  s.whenAdmitted (s.deviceConditions ++ [s.notInitYet]) (s.transmit bytes)

/-- `DEV_ENC_WRITE raw`: encode the raw channel bytes into the transmission buffer and send all of it in one port operation
(R95 to R99). -/
def execDevEncWrite (raw : List Byte) (s : State) : Host.Outcome State Fault Refusal :=
  s.whenAdmitted (s.deviceConditions ++ [s.notInitYet, (rawLengthBad s.cap raw, .lengthMismatch)]) (s.encodeAndWrite raw)

end Sys2Proof.Machine
end

