-- ==== Sys2Proof/Machine/NodeEncoder.lean ====
section
/-!
DEFINITION. The Node Encoder (spec/41_node_encoder.md).
-/
namespace Sys2Proof.Machine

/-- `ENC_NODE vs`: the waveform bytes of the channels of one node, in order; no state is read or written (R80, R81). -/
def execEncNode (vs : List Byte) (s : State) : Host.Outcome State Fault Refusal :=
  s.whenAdmitted [(nodeLengthBad s.cfg vs, .badNodeLength)] (s.returned (.bytes (encodeNode s.cfg vs)))

end Sys2Proof.Machine
end

