-- ==== Sys2Proof/Machine/PixelEncoder.lean ====
section
/-!
DEFINITION. The Pixel Encoder (spec/40_pixel_encoder.md).
-/
namespace Sys2Proof.Machine

/-- `ENC_PX v`: the 16 waveform bytes of one channel byte; no state is read or written (R70 to R73). -/
def execEncPx (v : Byte) (s : State) : Host.Outcome State Fault Refusal :=
  s.whenAdmitted [] (s.returned (.bytes (encodePx s.cfg v)))

end Sys2Proof.Machine
end

