-- ==== Sys2Proof/Machine/Strip.lean ====
section
/-!
DEFINITION. The LED Strip and its LED Buffer (spec/43_led_strip.md).
-/
namespace Sys2Proof.Machine

/-- The state a `CONSTRUCT` of an opened device leaves, before its result: the strip owns the device, the device is initialised
with `N`, the LED Buffer is zero (R106). -/
def State.constructed (s : State) : State := (s.taken.sized s.cfg.ledLen).zeroFill

/-- `CONSTRUCT`: `ConstructionError` and no state change where the device failed to open, else the strip around it (R106). -/
def execConstruct (s : State) : Host.Outcome State Fault Refusal :=
  s.whenAdmitted [(decide (s.phase = .owned), .alreadyConstructed)]
    (match s.devOpen with
    | .openFailed => s.returned .constructionError
    | .opened => s.constructed.returned .done)

/-- `SET_NODE idx, vs`: store one node, or take the fault before any write (R107). -/
def execSetNode (idx : Nat) (vs : List Byte) (s : State) : Host.Outcome State Fault Refusal :=
  s.whenAdmitted [(nodeLengthBad s.cfg vs, .badNodeLength), s.noStripYet]
    (if indexOut s.cfg idx then s.raised (.indexOutOfBounds idx) else (s.storeNode idx vs).returned .done)

/-- `GET_NODE idx`: read one node, or take the fault (R108). -/
def execGetNode (idx : Nat) (s : State) : Host.Outcome State Fault Refusal :=
  s.whenAdmitted [s.noStripYet]
    (if indexOut s.cfg idx then s.raised (.indexOutOfBounds idx) else s.returned (.bytes (s.loadNode idx)))

/-- `WRITE`: `encode_and_write` of the whole LED Buffer, its result unchanged (R109). -/
def execWrite (s : State) : Host.Outcome State Fault Refusal :=
  s.whenAdmitted [s.noStripYet] (s.encodeAndWrite s.ledBytes)

/-- `CLEAR`: zero-fill the LED Buffer, then as `WRITE`; the zero-fill is kept where the transfer fails (R110). -/
def execClear (s : State) : Host.Outcome State Fault Refusal :=
  s.whenAdmitted [s.noStripYet] (s.zeroFill.encodeAndWrite s.zeroFill.ledBytes)

end Sys2Proof.Machine
end

