-- ==== Sys2Proof/Machine/Dispatch.lean ====
section
/-!
DEFINITION. What each instruction does: one arm per constructor, one direct call of its meaning.
-/
namespace Sys2Proof.Machine

def exec (i : Instr) (s : State) : Host.Outcome State Fault Refusal :=
  match i with
  | .encPx v => Sys2Proof.Machine.execEncPx v s
  | .encNode vs => Sys2Proof.Machine.execEncNode vs s
  | .devInit c => Sys2Proof.Machine.execDevInit c s
  | .devWriteRaw bytes => Sys2Proof.Machine.execDevWriteRaw bytes s
  | .devEncWrite raw => Sys2Proof.Machine.execDevEncWrite raw s
  | .construct => Sys2Proof.Machine.execConstruct s
  | .setNode idx vs => Sys2Proof.Machine.execSetNode idx vs s
  | .write => Sys2Proof.Machine.execWrite s
  | .clear => Sys2Proof.Machine.execClear s
  | .getNode idx => Sys2Proof.Machine.execGetNode idx s

end Sys2Proof.Machine
end

