-- ==== Sys2Proof/Machine/Fetch.lean ====
section
/-!
DEFINITION. What the block is asked to do next: the next command of the host's list, decoded (spec/10_state.md R17,
spec/30_encoding.md R58 to R62), and how a command is placed there.
-/
namespace Sys2Proof.Machine

/-- What a step finds. -/
inductive Fetched where
  /-- The block has faulted: nothing is performed (spec/60_exceptions.md R130). -/
  | stopped (f : Fault)
  /-- The configuration or the command is one the spec refuses. -/
  | rejected (r : Refusal)
  /-- The host has no further operation to issue (spec/70_reset_and_hazards.md R155). -/
  | idle
  /-- The next operation. -/
  | operation (i : Instr)
  deriving DecidableEq, Repr

/-- The next command of the host's list, none at its end (spec/10_state.md R17). -/
def State.nextCommand (s : State) : Option Command := s.program[s.pc]?

/-- What the next step finds: a faulted block first (spec/60_exceptions.md R134), then the configuration
(spec/93_implementation_defined.md U15, spec/30_encoding.md R59; log entry 15), then the host's next command and row 1 of
spec/60_exceptions.md R132. -/
def fetch (s : State) : Fetched :=
  match s.fault with
  | some f => .stopped f
  | none =>
    if s.cfg.WellShaped ∧ s.cfg.Framable then
      match s.nextCommand with
      | none => .idle
      | some cmd =>
        match decode s.cfg cmd with
        | .ok i => .operation i
        | .error _ => .rejected .invalidEncoding
    else .rejected .badConfiguration

/-- The host's list with `cmd` at index `pc`; where the list is shorter, empty commands stand before it. -/
def placeCommand (program : List Command) (pc : Nat) (cmd : Command) : List Command :=
  program.take pc ++ List.replicate (pc - program.length) [] ++ cmd :: program.drop (pc + 1)

end Sys2Proof.Machine
end

