-- ==== Sys2Proof/Machine/Step.lean ====
section
/-!
DEFINITION. One step: the host issues the next operation of its list and the block performs it to its end
(spec/10_state.md R17, spec/20_memory.md R45).
-/
namespace Sys2Proof.Machine

/-- One step. At the end of the host's list the block does nothing and stays as it is (spec/70_reset_and_hazards.md R155,
R162; log entry 11); a faulted block answers its fault (spec/60_exceptions.md R130; log entry 12). -/
def step (s : State) : Host.Outcome State Fault Refusal :=
  match fetch s with
  | .stopped f => .fault f
  | .rejected r => .refused r
  | .idle => .next s
  | .operation i => exec i s

/-- `s` with the host's next command being the instruction whose first `nbits` bits are `w` (log entry 10). -/
def State.withFetchWord (s : State) (nbits w : Nat) : State :=
  { s with program := placeCommand s.program s.pc (commandOfWord s.cfg nbits w) }

end Sys2Proof.Machine
end

