-- ==== Sys2Proof/Machine/Observe.lean ====
section
/-!
DEFINITION. What the outside observes. `WIRE` is the only observation (spec/10_state.md R15, R26); what the physical strip
shows is a function of it (R27), not state.
-/
namespace Sys2Proof.Machine

/-- What the physical strip shows (spec/10_state.md R27). -/
inductive Display where
  /-- Nothing is known of it. -/
  | unknown
  /-- It is undefined: the last transfer failed. -/
  | undefined
  /-- It shows the channel values `v`, node `idx` the bytes `v[idx*M .. idx*M+M)`. -/
  | shown (v : List Byte)
  deriving DecidableEq, Repr

/-- The channel values a byte sequence is the frame of, `PAD ++ EncFrame(v)` with `N` values; none where it is no such frame
(spec/10_state.md R27, spec/30_encoding.md R53, R55). -/
def frameValues (cfg : Config) (bytes : List Byte) : Option (List Byte) :=
  if bytes.take cfg.padLen = cfg.pad then
    match decodePayload cfg (bytes.drop cfg.padLen) with
    | some v => if v.length = cfg.ledLen then some v else none
    | none => none
  else none

/-- What one transfer leaves the strip showing (spec/10_state.md R27). -/
def displayAfter (cfg : Config) (t : Transfer) : Display :=
  match t.outcome with
  | .failed _ => .undefined
  | .complete =>
    match frameValues cfg t.bytes with
    | some v => .shown v
    | none => .unknown

/-- `PHYS(WIRE)`: what the strip shows, decided by the last record (spec/10_state.md R27). `shown` holds of a real strip only
under the assumptions of spec/70_reset_and_hazards.md R161, which the model cannot state (log entry 20). -/
def phys (cfg : Config) (wire : List Transfer) : Display :=
  match wire.getLast? with
  | none => .unknown
  | some t => displayAfter cfg t

/-- The values node `idx` of a strip that shows `v` displays (spec/10_state.md R27). -/
def displayedNode (cfg : Config) (v : List Byte) (idx : Nat) : List Byte := (v.drop (idx * cfg.m)).take cfg.m

/-- The bytes of a transfer that reached the wire: all of them, or the first `K` (spec/42_device_contract.md R88). -/
def Transfer.onWire (t : Transfer) : List Byte :=
  match t.outcome with
  | .complete => t.bytes
  | .failed k => t.bytes.take k

/-- How many bytes of a transfer reached the wire (spec/10_state.md R26). -/
def Transfer.sent (t : Transfer) : Nat :=
  match t.outcome with
  | .complete => t.bytes.length
  | .failed k => k

/-- The bits of one waveform byte on the wire, most significant first (spec/20_memory.md R39, informative: no rule and no
statement depends on it; log entry 18). -/
def byteBits (b : Byte) : List Bool := (List.range 8).map fun k => b.getMsbD k

/-- The optional shape check on a pattern, read as 16 wire bits: `h` ones and then `16 - h` zeros (spec/92_eei_decisions.md
D27, spec/30_encoding.md R66, informative; log entry 18). -/
def pulseOf (p : Pattern) (h : Nat) : Bool :=
  decide (p.bytes.flatMap byteBits = List.replicate h true ++ List.replicate (16 - h) false)

/-- The optional check on a configuration: a one's high pulse is longer than a zero's (spec/92_eei_decisions.md D27,
informative; log entry 18). -/
def pulsesSuit (cfg : Config) : Bool :=
  (List.range 16).any fun h1 => (List.range h1).any fun h0 => decide (1 ≤ h0) && pulseOf cfg.one h1 && pulseOf cfg.zero h0

end Sys2Proof.Machine
end

