-- ==== Sys2Proof/Machine/Timing.lean ====
section
/-!
DEFINITION. Times on the wire, from the configuration's bit period (spec/70_reset_and_hazards.md R164, R165). Informative: the
model has no time and no operation reads these (log entry 18).
-/
namespace Sys2Proof.Machine

/-- One waveform byte is 8 SPI bits (R164). -/
def waveByteNs (cfg : Config) : Nat := 8 * cfg.spiBitNs

/-- One protocol bit is `SPI_BYTES_PER_BIT` waveform bytes (R164). -/
def protocolBitNs (cfg : Config) : Nat := spiBytesPerBit * waveByteNs cfg

/-- One channel byte is `PX_LEN` waveform bytes (R164). -/
def channelNs (cfg : Config) : Nat := pxLen * waveByteNs cfg

/-- One node is `M` channels (R164). -/
def nodeNs (cfg : Config) : Nat := cfg.m * channelNs cfg

/-- One frame is `FRAME_LEN` waveform bytes (R165). -/
def frameNs (cfg : Config) : Nat := cfg.frameLen * waveByteNs cfg

end Sys2Proof.Machine
end

