-- ==== Sys2Proof/Safety.lean ====
section
/-!
DEFINITION. What counts as a reset state, as a good state, and as the end of a run that went well.
-/
namespace Sys2Proof.Machine

/-- Every state the spec allows right after reset (spec/10_state.md R30): any configuration and any outcome of the backend's
open step, and any value of what the rule leaves unspecified, `CAP` and the `N` bytes of `LEDBUF`. The host has been given no
result and is at the start of its list, which may be any list, and the environment may answer anything. -/
abbrev State.IsReset (s : State) : Prop :=
  s.phase = .bare ∧ s.fault = none ∧ s.init = false ∧ s.txbuf = [] ∧ s.wire = [] ∧ s.pc = 0 ∧ s.results = [] ∧
  Memory.wf s.ledbuf ∧ ∀ c ∈ s.ledbuf, c.1 < s.cfg.ledLen

/-- The LED Buffer is in the form of a memory and lists only its `N` bytes (spec/10_state.md R24, R31 (a)). -/
abbrev State.LedOk (s : State) : Prop := Memory.wf s.ledbuf ∧ ∀ c ∈ s.ledbuf, c.1 < s.cfg.ledLen

/-- An initialised device's buffer has its length and its padding (spec/10_state.md R31 (b)). -/
abbrev State.BufferOk (s : State) : Prop :=
  s.init = true → s.txbuf.length = s.cfg.bufferLen s.cap ∧ s.txbuf.take s.cfg.padLen = s.cfg.pad

/-- A strip has an open, initialised device sized for the whole LED Buffer (spec/10_state.md R31 (c)). -/
abbrev State.StripOk (s : State) : Prop :=
  s.phase = .owned → s.devOpen = .opened ∧ s.init = true ∧ s.cap = s.cfg.ledLen

/-- Only an open device is ever initialised (spec/60_exceptions.md R132 row 6, spec/43_led_strip.md R106). -/
abbrev State.DeviceOk (s : State) : Prop := s.init = true → s.devOpen = .opened

/-- Before `initialize` the transmission buffer is empty and nothing has been sent (spec/10_state.md R25,
spec/42_device_contract.md R92). -/
abbrev State.UninitOk (s : State) : Prop := s.init = false → s.txbuf = [] ∧ s.wire = []

/-- A transfer put no more bytes on the wire than it was given: `0 <= K <= len(bytes)` (spec/10_state.md R26). -/
abbrev Transfer.Bounded (t : Transfer) : Prop := t.sent ≤ t.bytes.length

/-- Every record of `WIRE` is bounded. -/
abbrev State.WireOk (s : State) : Prop := ∀ t ∈ s.wire, Transfer.Bounded t

/-- Whether a recorded fault, if any, is an index outside the nodes of a constructed strip. -/
def faultIndexOk (cfg : Config) (phase : Phase) : Option Fault → Bool
  | none => true
  | some (.indexOutOfBounds idx) => decide (phase = .owned ∧ cfg.nodes ≤ idx)

/-- The recorded fault is an index outside the strip's nodes (spec/60_exceptions.md R126). -/
abbrev State.FaultOk (s : State) : Prop := faultIndexOk s.cfg s.phase s.fault = true

/-- The host has received one result for each operation before the index (spec/10_state.md R17, R29). -/
abbrev State.HostOk (s : State) : Prop := s.results.length = s.pc

/-- The invariant of the machine (spec/10_state.md R31, and what the rules about single fields say of every reachable
state). -/
abbrev State.Inv (s : State) : Prop :=
  s.LedOk ∧ s.BufferOk ∧ s.StripOk ∧ s.DeviceOk ∧ s.UninitOk ∧ s.WireOk ∧ s.FaultOk ∧ s.HostOk

/-- The end state of a run that went well: the host's list is exhausted and the block has not faulted; a refused run has no end
state (spec/70_reset_and_hazards.md R155). -/
abbrev State.Final (s : State) : Prop := s.fault = none ∧ s.program.length ≤ s.pc

/-- The host owns a device that opened: the device operations have a device and their caller is its owner
(spec/60_exceptions.md R132 rows 4 and 6, R141). -/
abbrev State.DeviceReady (s : State) : Prop := s.fault = none ∧ s.phase = .bare ∧ s.devOpen = .opened

/-- The host owns a device that opened and has been initialised (spec/42_device_contract.md R92, R93). -/
abbrev State.TransmitReady (s : State) : Prop := s.DeviceReady ∧ s.init = true

/-- A strip has been constructed and has not faulted (spec/43_led_strip.md R107 to R110). -/
abbrev State.StripReady (s : State) : Prop := s.fault = none ∧ s.phase = .owned

/-- The outcomes a `PortWrite` of `len` bytes can have: `Complete`, or `Failed(K)` with `0 <= K <= len`
(spec/42_device_contract.md R88). -/
abbrev Possible (len : Nat) (o : PortOutcome) : Prop := o = .complete ∨ ∃ k, k ≤ len ∧ o = .failed k

/-- An operation is a transmit operation: its effect is one `PortWrite` (spec/44_operation_laws.md R120). -/
def transmits : Instr → Bool
  | .devWriteRaw _ | .devEncWrite _ | .write | .clear => true
  | .encPx _ | .encNode _ | .devInit _ | .construct | .setNode _ _ | .getNode _ => false

/-- The table of refusals, rows 2 to 8 of spec/60_exceptions.md R132 in their order, read for one operation in a state that has
not faulted; none where the operation is admitted. -/
def tableRefusal (s : State) (i : Instr) : Option Refusal :=
  let device : Option Refusal :=
    if s.phase = .owned then some .notOwner else if s.devOpen = .openFailed then some .noDevice else none
  let strip : Option Refusal := if s.phase = .bare then some .noStrip else none
  match i with
  | .encPx _ => none
  | .encNode vs => if vs.length ≠ s.cfg.m then some .badNodeLength else none
  | .devInit _ => device
  | .devWriteRaw _ => if device ≠ none then device else if s.init = false then some .notInitialised else none
  | .devEncWrite raw =>
    if device ≠ none then device
    else if s.init = false then some .notInitialised
    else if raw.length ≠ s.cap then some .lengthMismatch
    else none
  | .construct => if s.phase = .owned then some .alreadyConstructed else none
  | .setNode _ vs => if vs.length ≠ s.cfg.m then some .badNodeLength else strip
  | .write => strip
  | .clear => strip
  | .getNode _ => strip

/-- The kinds of result an operation can return (spec/10_state.md R29). -/
def resultKind (s : State) : Instr → Result → Bool
  | .encPx _, .bytes bs => bs.length = pxLen
  | .encNode _, .bytes bs => bs.length = s.cfg.nodeLen
  | .getNode _, .bytes bs => bs.length = s.cfg.m
  | .devInit _, .done | .setNode _ _, .done => true
  | .construct, .done => s.devOpen = .opened
  | .construct, .constructionError => s.devOpen = .openFailed
  | .devWriteRaw _, .done | .devEncWrite _, .done | .write, .done | .clear, .done => true
  | .devWriteRaw bytes, .transmissionError len => len = bytes.length
  | .devEncWrite _, .transmissionError len => len = s.cfg.bufferLen s.cap
  | .write, .transmissionError len | .clear, .transmissionError len => len = s.cfg.frameLen
  | _, _ => false

/-- Perform a list of operations in order, stopping at the first that does not answer a next state
(spec/30_encoding.md R64). -/
def performAll : List Instr → State → Host.Outcome State Fault Refusal
  | [], s => .next s
  | i :: is, s =>
    match exec i s with
    | .next t => performAll is t
    | .fault f => .fault f
    | .refused r => .refused r

end Sys2Proof.Machine
end

