-- ==== Sys2Proof/Certificates/Slice0/Obligations.lean ====
section
/-!
DEFINITION. The statements of the row, from the numbered rules of spec/. Each docstring names the rule it formalises.
A next state is written out where the rules give all of it: `{ s with … }` says that every other component is unchanged.
-/
open Sys2Proof Sys2Proof.Machine

/-! ## The byte framing -/

/-- spec/30_encoding.md R58 to R60, R62: decoding the command of a well-formed instruction gives the instruction back, under
every configuration and at every operand value the framing carries. -/
def Obligations.DecodeEncodeAgree : Prop :=
  ∀ (cfg : Config) (i : Instr), i.WellFormed cfg → decode cfg (encode i) = .ok i

/-- spec/30_encoding.md R58, R59, R61: the decoder accepts nothing but the command of a well-formed instruction, so every
command has one meaning and no bit of it is dropped. That a command with bytes to spare is rejected is the model's choice (log
entry 13). -/
def Obligations.DecodeAcceptsOnlyEncodings : Prop :=
  ∀ (cfg : Config) (cmd : Command) (i : Instr), decode cfg cmd = .ok i → i.WellFormed cfg ∧ encode i = cmd

/-- spec/30_encoding.md R62: the length of a command is given by its opcode, by `M` in formats V and X, and by its length
field in format S. -/
def Obligations.CommandLengths : Prop :=
  ∀ (cfg : Config) (i : Instr), i.WellFormed cfg →
    (encode i).length = i.op.commandLength cfg
      (match i with | .devWriteRaw bytes => bytes.length | .devEncWrite raw => raw.length | _ => 0)

/-- spec/95_test_vectors.md, command bytes of V5, V21, V35, V62, V66 and V68, written out from the layouts of
spec/30_encoding.md R58 to R60: they decode to the operations they stand for. -/
def Obligations.SpelledCommandsDecode : Prop :=
  decode Config.reference [0x10, 0xB0] = .ok (.encPx 0xB0) ∧
  decode { Config.reference with m := 2 } [0x20, 0xB0, 0x01] = .ok (.encNode [0xB0, 0x01]) ∧
  decode Config.reference [0x30, 0x00, 0x00, 0x00, 0x02] = .ok (.devInit 2) ∧
  decode Config.reference [0x31, 0x00, 0x00, 0x00, 0x03, 0x12, 0x34, 0x56] = .ok (.devWriteRaw [0x12, 0x34, 0x56]) ∧
  decode Config.reference [0x32, 0x00, 0x00, 0x00, 0x02, 0xB0, 0x01] = .ok (.devEncWrite [0xB0, 0x01]) ∧
  decode Config.reference [0x40] = .ok .construct ∧
  decode Config.reference [0x41, 0x00, 0x00, 0x00, 0x01, 0x00, 0x32, 0x1E] = .ok (.setNode 1 [0, 50, 30]) ∧
  decode Config.reference [0x42] = .ok .write ∧
  decode Config.reference [0x43] = .ok .clear ∧
  decode Config.reference [0x44, 0xFF, 0xFF, 0xFF, 0xFF] = .ok (.getNode 4294967295)

/-- spec/30_encoding.md R61, spec/60_exceptions.md R132 row 1: a step refuses a command with an opcode byte outside the opcode
map, an empty command, and every command cut short. -/
def Obligations.InvalidEncodingsRefused : Prop :=
  ∀ (s : State) (cmd : Command), s.fault = none → s.cfg.WellShaped → s.cfg.Framable → s.program[s.pc]? = some cmd →
    (cmd = [] ∨
      (∃ b bs, cmd = b :: bs ∧ b ∉ ([0x10, 0x20, 0x30, 0x31, 0x32, 0x40, 0x41, 0x42, 0x43, 0x44] : List Byte)) ∨
      (∃ i n, i.WellFormed s.cfg ∧ n < (encode i).length ∧ cmd = (encode i).take n)) →
    step s = .refused .invalidEncoding

/-- spec/30_encoding.md R65: the status byte and the payload of each result; the count of a transmission error is carried
most significant byte first. The clause is for counts below `2^32`, which is all the framing carries (R59). -/
def Obligations.ResultFraming : Prop :=
  resultBytes .done = some [0x00] ∧ resultBytes .constructionError = some [0x02] ∧
  (∀ bs, resultBytes (.bytes bs) = some (0x00 :: bs)) ∧
  ∀ len, len < 2 ^ 32 → ∃ a b c d : Byte, resultBytes (.transmissionError len) = some [0x01, a, b, c, d] ∧
    a.toNat * 16777216 + b.toNat * 65536 + c.toNat * 256 + d.toNat = len

/-! ## The waveform encoding -/

/-- spec/30_encoding.md R51: `EncPx(v)` has 16 bytes and `EncPx(v)[2*b + k]` is byte `k` of the pattern of bit `7 - b` of
`v`. -/
def Obligations.PixelEncodingLayout : Prop :=
  ∀ (cfg : Config) (v : Byte), (encodePx cfg v).length = 16 ∧
    ∀ b, b < 8 →
      (encodePx cfg v)[2 * b]? = some (if v.getLsbD (7 - b) then cfg.one else cfg.zero).fst ∧
      (encodePx cfg v)[2 * b + 1]? = some (if v.getLsbD (7 - b) then cfg.one else cfg.zero).snd

/-- spec/40_pixel_encoder.md R72: the two bytes of position `b` equal `ONE` if and only if bit `7 - b` is set, and equal `ZERO`
otherwise. The premise `ONE ≠ ZERO` is what spec/00_scope.md R10 asks of the patterns. -/
def Obligations.PixelUnitIsOneIffBitSet : Prop :=
  ∀ (cfg : Config) (v : Byte) (b : Nat), cfg.one ≠ cfg.zero → b < 8 →
    (((encodePx cfg v).drop (2 * b)).take 2 = cfg.one.bytes ↔ v.getLsbD (7 - b) = true) ∧
    (v.getLsbD (7 - b) = false → ((encodePx cfg v).drop (2 * b)).take 2 = cfg.zero.bytes)

/-- spec/30_encoding.md R55, spec/40_pixel_encoder.md R74: frames of equal length are equal only if the channel bytes are, so
the 256 encodings of a channel byte are distinct. -/
def Obligations.EncodingInjective : Prop :=
  ∀ (cfg : Config), cfg.one ≠ cfg.zero →
    (∀ v w, encodePx cfg v = encodePx cfg w → v = w) ∧
    ∀ raw raw' : List Byte, raw.length = raw'.length → encodeFrame cfg raw = encodeFrame cfg raw' → raw = raw'

/-- spec/41_node_encoder.md R81: the length of an encoded node, and channel `j` at byte offset `16 * j`. -/
def Obligations.NodeEncodingLayout : Prop :=
  ∀ (cfg : Config) (vs : List Byte), vs.length = cfg.m →
    (encodeNode cfg vs).length = 16 * cfg.m ∧
    ∀ j v, vs[j]? = some v → ((encodeNode cfg vs).drop (16 * j)).take 16 = encodePx cfg v

/-- spec/30_encoding.md R53: the frame of `c` raw bytes has `PAD_LEN + 16 * c` bytes, starts with the padding, and carries bit
`7 - b` of raw byte `i` at offset `PAD_LEN + 16*i + 2*b`. -/
def Obligations.FrameLayout : Prop :=
  ∀ (cfg : Config) (raw : List Byte),
    (cfg.pad ++ encodeFrame cfg raw).length = cfg.padLen + 16 * raw.length ∧
    (cfg.pad ++ encodeFrame cfg raw).take cfg.padLen = cfg.pad ∧
    ∀ i v b, raw[i]? = some v → b < 8 →
      (cfg.pad ++ encodeFrame cfg raw)[cfg.padLen + 16 * i + 2 * b]? =
        some (if v.getLsbD (7 - b) then cfg.one else cfg.zero).fst ∧
      (cfg.pad ++ encodeFrame cfg raw)[cfg.padLen + 16 * i + 2 * b + 1]? =
        some (if v.getLsbD (7 - b) then cfg.one else cfg.zero).snd

/-- spec/30_encoding.md R53 (derived there), spec/20_memory.md R38: the frame of the LED Buffer is the encodings of its nodes,
node 0 first. -/
def Obligations.FrameIsNodesInOrder : Prop :=
  ∀ s : State, encodeFrame s.cfg s.ledBytes =
    (List.range s.cfg.nodes).flatMap fun idx => encodeNode s.cfg (s.loadNode idx)

/-- spec/30_encoding.md R55: decoding a payload gives back the raw channel bytes it was encoded from, and decodes nothing
else. -/
def Obligations.PayloadDecodeEncodeAgree : Prop :=
  ∀ (cfg : Config) (payload raw : List Byte), cfg.one ≠ cfg.zero →
    (decodePayload cfg payload = some raw ↔ payload = encodeFrame cfg raw)

/-- spec/30_encoding.md R55: a byte sequence of length `16*c` is a valid payload exactly when every aligned pair equals `ONE`
or `ZERO`. -/
def Obligations.ValidPayloadIffUnits : Prop :=
  ∀ (cfg : Config) (payload : List Byte) (c : Nat), payload.length = 16 * c →
    ((∀ t, t < 8 * c → (payload.drop (2 * t)).take 2 = cfg.one.bytes ∨ (payload.drop (2 * t)).take 2 = cfg.zero.bytes) ↔
      ∃ raw, raw.length = c ∧ encodeFrame cfg raw = payload)

/-! ## The encoders -/

/-- spec/40_pixel_encoder.md R70, R73: `ENC_PX v` returns, for `b = 0 .. 7`, `ONE` where bit `7 - b` of `v` is set and `ZERO`
where it is clear; it is admitted in any phase, and nothing else changes. -/
def Obligations.EncPxReturnsWaveform : Prop :=
  ∀ (s : State) (v : Byte), s.fault = none →
    exec (.encPx v) s = .next { s with
      results := s.results ++ [.bytes ((List.range 8).flatMap fun b =>
        if v.getLsbD (7 - b) then s.cfg.one.bytes else s.cfg.zero.bytes)],
      pc := s.pc + 1 }

/-- spec/41_node_encoder.md R80: `ENC_NODE vs` returns the Pixel Encoder outputs of the `M` channels, concatenated in channel
order; it is admitted in any phase, and nothing else changes. A node of other than `M` bytes is refused. -/
def Obligations.EncNodeReturnsWaveform : Prop :=
  ∀ (s : State) (vs : List Byte), s.fault = none →
    (vs.length = s.cfg.m →
      exec (.encNode vs) s = .next { s with
        results := s.results ++ [.bytes (vs.map (encodePx s.cfg)).flatten],
        pc := s.pc + 1 }) ∧
    (vs.length ≠ s.cfg.m → exec (.encNode vs) s = .refused .badNodeLength)

/-! ## The device operations -/

/-- spec/42_device_contract.md R90: `DEV_INIT c` sets `CAP` to `c`, makes `TXBUF` the padding followed by `16*c` bytes of
unspecified value, sets `INIT`, returns `Ok(())`, and changes nothing else (`draws` only counts free values). -/
def Obligations.DevInitSizesBuffer : Prop :=
  ∀ (s : State) (c : Nat), s.DeviceReady →
    ∃ u d, u.length = 16 * c ∧ exec (.devInit c) s = .next { s with
      cap := c, txbuf := s.cfg.pad ++ u, init := true, draws := d, results := s.results ++ [.done], pc := s.pc + 1 }

/-- spec/42_device_contract.md R91: `DEV_INIT c` twice leaves the same `INIT`, `CAP`, length of `TXBUF` and padding as once. -/
def Obligations.DevInitIdempotent : Prop :=
  ∀ (s : State) (c : Nat), s.DeviceReady →
    ∃ t u, exec (.devInit c) s = .next t ∧ exec (.devInit c) t = .next u ∧
      u.init = t.init ∧ u.cap = t.cap ∧ u.txbuf.length = t.txbuf.length ∧
      u.txbuf.take s.cfg.padLen = t.txbuf.take s.cfg.padLen ∧
      u.phase = t.phase ∧ u.ledbuf = t.ledbuf ∧ u.wire = t.wire ∧ u.fault = t.fault

/-- spec/42_device_contract.md R93, R88: `DEV_WRITE_RAW bytes` hands the bytes verbatim to the port once, appends one record
with an outcome the port may have, and returns `Ok(())` exactly on `Complete`, else the error with the attempted length.
`TXBUF`, `CAP` and `LEDBUF` do not change. -/
def Obligations.DevWriteRawTransmits : Prop :=
  ∀ (s : State) (bytes : List Byte), s.TransmitReady →
    ∃ o rest d, Possible bytes.length o ∧ exec (.devWriteRaw bytes) s = .next { s with
      wire := s.wire ++ [⟨bytes, o⟩], answers := rest, draws := d,
      results := s.results ++ [if o = .complete then .done else .transmissionError bytes.length], pc := s.pc + 1 }

/-- spec/42_device_contract.md R94: the error carries the attempted length `L`, whatever `K` was, `K = 0` and `K = L`
included; the record keeps `K`. -/
def Obligations.ErrorCarriesLengthNotCount : Prop :=
  ∀ (s : State) (bytes : List Byte) (k : Nat) (rest : List PortOutcome), s.TransmitReady → k ≤ bytes.length →
    s.answers = .failed k :: rest →
    exec (.devWriteRaw bytes) s = .next { s with
      wire := s.wire ++ [⟨bytes, .failed k⟩], answers := rest,
      results := s.results ++ [.transmissionError bytes.length], pc := s.pc + 1 }

/-- spec/42_device_contract.md R95, R97, R99: `DEV_ENC_WRITE raw` leaves `PAD ++ EncFrame(raw)` in `TXBUF`, whatever the port
answers, hands exactly that to the port once, and its error carries `PAD_LEN + 16*CAP`. The premise on the buffer is part of
the invariant, spec/10_state.md R31 (b). -/
def Obligations.DevEncWriteTransmits : Prop :=
  ∀ (s : State) (raw : List Byte), s.TransmitReady → s.BufferOk → raw.length = s.cap →
    ∃ o rest d, Possible (s.cfg.padLen + 16 * s.cap) o ∧ exec (.devEncWrite raw) s = .next { s with
      txbuf := s.cfg.pad ++ encodeFrame s.cfg raw,
      wire := s.wire ++ [⟨s.cfg.pad ++ encodeFrame s.cfg raw, o⟩], answers := rest, draws := d,
      results := s.results ++ [if o = .complete then .done else .transmissionError (s.cfg.padLen + 16 * s.cap)],
      pc := s.pc + 1 }

/-- spec/42_device_contract.md R101: `DEV_ENC_WRITE raw` and `DEV_WRITE_RAW (PAD ++ EncFrame(raw))` hand the same bytes to the
port and return the same result; they differ only in that the first leaves the frame in `TXBUF`. -/
def Obligations.RawPathEqualsEncodePath : Prop :=
  ∀ (s : State) (raw : List Byte), s.TransmitReady → s.BufferOk → raw.length = s.cap →
    ∃ t u, exec (.devEncWrite raw) s = .next t ∧
      exec (.devWriteRaw (s.cfg.pad ++ encodeFrame s.cfg raw)) s = .next u ∧
      t.txbuf = s.cfg.pad ++ encodeFrame s.cfg raw ∧ u = { t with txbuf := s.txbuf }

/-- spec/41_node_encoder.md R82: the encodings of nodes, concatenated behind the padding and sent raw, are on the wire what
`DEV_ENC_WRITE` of the same channel bytes sends. -/
def Obligations.PreEncodedNodesSameWire : Prop :=
  ∀ (s : State) (ns : List (List Byte)), s.TransmitReady → s.BufferOk → ns.flatten.length = s.cap →
    ∃ t u, exec (.devEncWrite ns.flatten) s = .next t ∧
      exec (.devWriteRaw (s.cfg.pad ++ (ns.map (encodeNode s.cfg)).flatten)) s = .next u ∧
      u.wire = t.wire ∧ u.results = t.results

/-! ## The strip operations -/

/-- spec/43_led_strip.md R106: `CONSTRUCT` on an opened device takes it, initialises it with `N`, zero-fills the LED Buffer (no
byte is then listed, and every byte reads as 0), returns `Ok(())` and sends nothing. The premise on the LED Buffer is part of
the invariant. -/
def Obligations.ConstructBuildsStrip : Prop :=
  ∀ s : State, s.DeviceReady → s.LedOk →
    ∃ u d, u.length = 16 * s.cfg.ledLen ∧ exec .construct s = .next { s with
      phase := .owned, cap := s.cfg.ledLen, txbuf := s.cfg.pad ++ u, init := true, ledbuf := [], draws := d,
      results := s.results ++ [.done], pc := s.pc + 1 }

/-- spec/60_exceptions.md R128: `CONSTRUCT` returns `ConstructionError` exactly where the device failed to open; no state
changes then, but for the index and the result the host receives. -/
def Obligations.ConstructReportsOpenFailure : Prop :=
  ∀ s : State, s.fault = none → s.phase = .bare →
    (s.devOpen = .openFailed →
      exec .construct s = .next { s with results := s.results ++ [.constructionError], pc := s.pc + 1 }) ∧
    (s.devOpen ≠ .openFailed → ∃ t, exec .construct s = .next t ∧ t.results = s.results ++ [.done])

/-- spec/43_led_strip.md R107: `SET_NODE idx, vs` stores channel `j` at byte `idx*M + j`, leaves every byte outside
`[idx*M, idx*M + M)` as it was, returns `Ok(())` and changes nothing else. -/
def Obligations.SetNodeStores : Prop :=
  ∀ (s : State) (idx : Nat) (vs : List Byte), s.StripReady → vs.length = s.cfg.m → idx < s.cfg.nodes →
    ∃ mem, exec (.setNode idx vs) s = .next { s with
        ledbuf := mem, results := s.results ++ [.done], pc := s.pc + 1 } ∧
      (∀ j v, vs[j]? = some v → memGet mem (idx * s.cfg.m + j) = v) ∧
      ∀ a, a < idx * s.cfg.m ∨ idx * s.cfg.m + s.cfg.m ≤ a → memGet mem a = memGet s.ledbuf a

/-- spec/43_led_strip.md R108: `GET_NODE idx` returns the `M` bytes of the node, channel `j` from byte `idx*M + j`, and changes
nothing else. -/
def Obligations.GetNodeReads : Prop :=
  ∀ (s : State) (idx : Nat), s.StripReady → idx < s.cfg.nodes →
    ∃ bs, bs.length = s.cfg.m ∧ (∀ j, j < s.cfg.m → bs[j]? = some (memGet s.ledbuf (idx * s.cfg.m + j))) ∧
      exec (.getNode idx) s = .next { s with results := s.results ++ [.bytes bs], pc := s.pc + 1 }

/-- spec/60_exceptions.md R126, R135: `SET_NODE` and `GET_NODE` raise the fault exactly when `idx >= NODES`. They then put
`IndexOutOfBounds(idx)` into `FAULT`; nothing else changes, no result is returned and the index of the host's list stays. -/
def Obligations.IndexFaultEntry : Prop :=
  ∀ (s : State) (idx : Nat) (vs : List Byte), s.StripReady → vs.length = s.cfg.m →
    (s.cfg.nodes ≤ idx →
      exec (.setNode idx vs) s = .next { s with fault := some (.indexOutOfBounds idx) } ∧
      exec (.getNode idx) s = .next { s with fault := some (.indexOutOfBounds idx) }) ∧
    (idx < s.cfg.nodes →
      (∃ t, exec (.setNode idx vs) s = .next t ∧ t.fault = none) ∧ ∃ t, exec (.getNode idx) s = .next t ∧ t.fault = none)

/-- spec/43_led_strip.md R109: `WRITE` leaves `PAD ++ EncFrame(LEDBUF)` in `TXBUF`, hands exactly that to the port once, returns
`Ok(())` on `Complete` and the error with `FRAME_LEN` otherwise; `LEDBUF` does not change. The premises on the buffer are part
of the invariant, spec/10_state.md R31 (b) and (c). -/
def Obligations.WriteSendsFrame : Prop :=
  ∀ s : State, s.StripReady → s.BufferOk → s.StripOk →
    ∃ o rest d, Possible s.cfg.frameLen o ∧ exec .write s = .next { s with
      txbuf := s.cfg.pad ++ encodeFrame s.cfg s.ledBytes,
      wire := s.wire ++ [⟨s.cfg.pad ++ encodeFrame s.cfg s.ledBytes, o⟩], answers := rest, draws := d,
      results := s.results ++ [if o = .complete then .done else .transmissionError s.cfg.frameLen], pc := s.pc + 1 }

/-- spec/43_led_strip.md R110: `CLEAR` leaves every byte of the LED Buffer 0, whatever the port answers, and sends the padding
followed by `8*N` copies of `ZERO`, as `WRITE` sends a frame. The premises are parts of the invariant. -/
def Obligations.ClearSendsBlankFrame : Prop :=
  ∀ s : State, s.StripReady → s.BufferOk → s.StripOk → s.LedOk →
    ∃ o rest d, Possible s.cfg.frameLen o ∧ exec .clear s = .next { s with
      ledbuf := [],
      txbuf := s.cfg.pad ++ (List.replicate (8 * s.cfg.ledLen) s.cfg.zero.bytes).flatten,
      wire := s.wire ++ [⟨s.cfg.pad ++ (List.replicate (8 * s.cfg.ledLen) s.cfg.zero.bytes).flatten, o⟩],
      answers := rest, draws := d,
      results := s.results ++ [if o = .complete then .done else .transmissionError s.cfg.frameLen], pc := s.pc + 1 }

/-- spec/43_led_strip.md R111: a node just stored reads back as stored, and every other node reads as before; no operation other
than `CONSTRUCT`, `SET_NODE` and `CLEAR` changes what `GET_NODE` returns. -/
def Obligations.ReadAfterWrite : Prop :=
  (∀ (s t : State) (idx : Nat) (vs : List Byte), s.StripReady → vs.length = s.cfg.m → idx < s.cfg.nodes →
    exec (.setNode idx vs) s = .next t →
    exec (.getNode idx) t = .next { t with results := t.results ++ [.bytes vs], pc := t.pc + 1 } ∧
    ∀ k bs, k < s.cfg.nodes → k ≠ idx →
      (exec (.getNode k) s = .next { s with results := s.results ++ [.bytes bs], pc := s.pc + 1 } ↔
        exec (.getNode k) t = .next { t with results := t.results ++ [.bytes bs], pc := t.pc + 1 })) ∧
  ∀ (i : Instr) (s t : State), s.StripReady → i.op ∉ [Op.construct, .setNode, .clear] → exec i s = .next t →
    t.fault = none → ∀ k bs, k < s.cfg.nodes →
      (exec (.getNode k) s = .next { s with results := s.results ++ [.bytes bs], pc := s.pc + 1 } ↔
        exec (.getNode k) t = .next { t with results := t.results ++ [.bytes bs], pc := t.pc + 1 })

/-- spec/95_test_vectors.md E5, spec/43_led_strip.md R110: after `CLEAR`, whatever the port answered, every node reads as `M`
zeros. -/
def Obligations.ClearedNodesReadZero : Prop :=
  ∀ (s t : State) (idx : Nat), s.StripReady → idx < s.cfg.nodes → exec .clear s = .next t →
    exec (.getNode idx) t = .next { t with
      results := t.results ++ [.bytes (List.replicate s.cfg.m 0)], pc := t.pc + 1 }

/-- spec/30_encoding.md R64: `CLEAR` is equal to `SET_NODE` of zeros on every node in order and then `WRITE`: the same state of
the block, and the result of the final `WRITE` as its result. -/
def Obligations.ClearIsItsExpansion : Prop :=
  ∀ s : State, s.StripReady →
    ∃ t u, exec .clear s = .next t ∧
      performAll ((List.range s.cfg.nodes).map (fun idx => .setNode idx (List.replicate s.cfg.m 0)) ++ [.write]) s = .next u ∧
      u = { t with results := u.results, pc := u.pc } ∧ u.results.getLast? = t.results.getLast?

/-- spec/43_led_strip.md R113: the frame of a `WRITE` is `PAD ++ EncFrame(LEDBUF)`, a function of the configuration and `LEDBUF`
alone: two strips that agree on these send equal bytes, whatever else differs between them. -/
def Obligations.FrameDependsOnBufferAlone : Prop :=
  ∀ s s' t t' : State, s.Inv → s'.Inv → s.StripReady → s'.StripReady → s.cfg = s'.cfg →
    (∀ a, a < s.cfg.ledLen → memGet s.ledbuf a = memGet s'.ledbuf a) →
    exec .write s = .next t → exec .write s' = .next t' →
    ∃ o o', t.wire = s.wire ++ [⟨s.cfg.pad ++ encodeFrame s.cfg s.ledBytes, o⟩] ∧
      t'.wire = s'.wire ++ [⟨s.cfg.pad ++ encodeFrame s.cfg s.ledBytes, o'⟩]

/-- spec/20_memory.md R44: `SET_NODE` twice with the same operands leaves the LED Buffer as once. The premise is part of the
invariant. -/
def Obligations.SetNodeIdempotent : Prop :=
  ∀ (s t u : State) (idx : Nat) (vs : List Byte), s.LedOk → idx < s.cfg.nodes →
    exec (.setNode idx vs) s = .next t → exec (.setNode idx vs) t = .next u → u.ledbuf = t.ledbuf

/-- spec/20_memory.md R40: the bytes of a node lie inside the LED Buffer, and two nodes share none. -/
def Obligations.NodeRangesFit : Prop :=
  ∀ (cfg : Config) (idx idx' : Nat), idx < cfg.nodes → idx' < cfg.nodes →
    nodeBase cfg idx + cfg.m ≤ cfg.ledLen ∧
    (idx < idx' → nodeBase cfg idx + cfg.m ≤ nodeBase cfg idx')

/-! ## What an operation may touch -/

/-- spec/44_operation_laws.md R120: the table of what each operation reads and writes, its columns for writing. No operation
writes the configuration (spec/10_state.md R32), `DEV_OPEN` (R20) or the host's list. -/
def Obligations.OperationFrames : Prop :=
  ∀ (i : Instr) (s t : State), exec i s = .next t →
    (i.op ∉ [Op.construct, .setNode, .clear] → t.ledbuf = s.ledbuf) ∧
    (i.op ∉ [Op.devInit, .devEncWrite, .construct, .write, .clear] → t.txbuf = s.txbuf) ∧
    (i.op ∉ [Op.devInit, .construct] → t.cap = s.cap ∧ t.init = s.init) ∧
    (i.op ≠ .construct → t.phase = s.phase) ∧
    (transmits i = false → t.wire = s.wire ∧ t.answers = s.answers) ∧
    (i.op ∉ [Op.setNode, .getNode] → t.fault = s.fault) ∧
    t.cfg = s.cfg ∧ t.devOpen = s.devOpen ∧ t.program = s.program

/-- spec/44_operation_laws.md R118: which bytes of the LED Buffer an operation may store to: `SET_NODE` the bytes of its node,
`CONSTRUCT` and `CLEAR` the `N` bytes of the buffer, every other operation none. Every other byte reads as before. -/
def Obligations.StoredBytesOnly : Prop :=
  ∀ (i : Instr) (s t : State), exec i s = .next t → ∀ a,
    (match i with
      | .setNode idx vs => a < nodeBase s.cfg idx ∨ nodeBase s.cfg idx + vs.length ≤ a
      | .construct | .clear => s.cfg.ledLen ≤ a
      | .encPx _ | .encNode _ | .devInit _ | .devWriteRaw _ | .devEncWrite _ | .write | .getNode _ => True) →
    memGet t.ledbuf a = memGet s.ledbuf a

/-- spec/20_memory.md R43, spec/42_device_contract.md R98: a transmit operation performs exactly one `PortWrite`, with all its
bytes; no other operation performs one. -/
def Obligations.OnePortOperationPerTransmit : Prop :=
  ∀ (i : Instr) (s t : State), exec i s = .next t →
    (transmits i = true →
      ∃ bytes o, Possible bytes.length o ∧ t.wire = s.wire ++ [⟨bytes, o⟩] ∧
        (match i with
          | .devWriteRaw bs => bytes = bs
          | .devEncWrite _ | .write | .clear => bytes = t.txbuf
          | .encPx _ | .encNode _ | .devInit _ | .construct | .setNode _ _ | .getNode _ => False)) ∧
    (transmits i = false → t.wire = s.wire)

/-- spec/10_state.md R17, R29: an operation that returns hands the host exactly one result and the index moves on by one; an
operation that takes the fault returns none and the index stays. -/
def Obligations.OneResultPerOperation : Prop :=
  ∀ (i : Instr) (s t : State), exec i s = .next t →
    (t.pc = s.pc + 1 ∧ t.fault = none ∧ ∃ r, t.results = s.results ++ [r]) ∨
    (t.pc = s.pc ∧ t.results = s.results ∧ ∃ idx, t.fault = some (.indexOutOfBounds idx) ∧ s.cfg.nodes ≤ idx)

/-- spec/10_state.md R29, spec/60_exceptions.md R127 to R129: the kinds of result of each operation, and the count each error
carries. The premise is the invariant, spec/10_state.md R31. -/
def Obligations.ResultKinds : Prop :=
  ∀ (i : Instr) (s t : State) (r : Result), s.Inv → exec i s = .next t → t.results = s.results ++ [r] →
    resultKind s i r = true

/-- spec/60_exceptions.md R132, rows 2 to 8, R134: an operation is refused exactly where the table says, with the reason the
table's order gives. The last clause, that an operation in a state that has not faulted never has the outcome `fault`, is the
model's choice, no rule of the spec (log entry 12): where `SET_NODE` and `GET_NODE` raise the fault (R126), the model answers a
next state with `FAULT` set. -/
def Obligations.RefusalsFollowTable : Prop :=
  ∀ (i : Instr) (s : State), s.fault = none →
    (∀ r, exec i s = .refused r ↔ tableRefusal s i = some r) ∧ ∀ f, exec i s ≠ .fault f

/-- spec/60_exceptions.md R132, R125: every operation the table admits, of all ten, answers a next state. That is a result
(R125, ways 1 and 2) or, for `SET_NODE` and `GET_NODE` with `idx >= NODES`, the fault entry (way 3, R126). That the fault entry
is a next state is the model's choice (log entry 12). That a transmit operation returns rests on the port answering, which the
spec assumes (spec/70_reset_and_hazards.md R166; log entry 8). -/
def Obligations.AdmittedOperationsComplete : Prop :=
  ∀ (i : Instr) (s : State), s.fault = none → tableRefusal s i = none → ∃ t, exec i s = .next t

/-- spec/42_device_contract.md R100, spec/60_exceptions.md R137: after a transmit operation, whether it returned `Ok` or an
error, every operation is admitted or refused exactly as it was before. -/
def Obligations.TransmitKeepsAdmission : Prop :=
  ∀ (i j : Instr) (s t : State), transmits i = true → exec i s = .next t →
    t.fault = none ∧ tableRefusal t j = tableRefusal s j

/-! ## Steps -/

/-- spec/10_state.md R17, spec/30_encoding.md R58: where the host's next command decodes to an instruction, the step is that
instruction's `exec` at the same state; moving the index on is part of the operation's return. -/
def Obligations.StepRunsDecodedInstruction : Prop :=
  ∀ (s : State) (cmd : Command) (i : Instr), s.fault = none → s.cfg.WellShaped → s.cfg.Framable →
    s.program[s.pc]? = some cmd → decode s.cfg cmd = .ok i → step s = exec i s

/-- spec/60_exceptions.md R130, spec/10_state.md R31 (e): a faulted block performs nothing: no step and no operation answers a
next state or a refusal. That the answer is the recorded fault is the model's reading (log entry 12). -/
def Obligations.FaultedBlockPerformsNothing : Prop :=
  ∀ (s : State) (f : Fault), s.fault = some f → step s = .fault f ∧ ∀ i, exec i s = .fault f

/-- spec/70_reset_and_hazards.md R155, R162: at the end of the host's list nothing happens. That a step then answers the same
state is the model's choice (log entry 11). -/
def Obligations.IdleAtEndOfList : Prop :=
  ∀ s : State, s.Final → s.cfg.WellShaped → s.cfg.Framable → step s = .next s

/-- spec/70_reset_and_hazards.md R154, spec/93_implementation_defined.md U15, spec/30_encoding.md R59: a step under a
configuration the spec refuses is refused. That the step checks it is the model's choice (log entry 15). -/
def Obligations.BadConfigurationRefused : Prop :=
  ∀ s : State, s.fault = none →
    (s.cfg.one = s.cfg.zero ∨ s.cfg.m = 0 ∨ s.cfg.nodes = 0 ∨ 2 ^ 32 ≤ s.cfg.padLen + 16 * (s.cfg.nodes * s.cfg.m)) →
    step s = .refused .badConfiguration

/-! ## Reset and invariants -/

/-- spec/70_reset_and_hazards.md R151, spec/10_state.md R30: the values the spec gives for reset, under every configuration and
both outcomes of the backend's open step; the strip is `Unknown`; `LEDBUF` cannot be reached, since every operation on it is
refused. Nothing is said of the values of `CAP` and `LEDBUF`, which the rule leaves unspecified. -/
def Obligations.ResetValues : Prop :=
  (∀ (cfg : Config) (o : DevOpen),
    (State.resetWith cfg o).phase = .bare ∧ (State.resetWith cfg o).devOpen = o ∧ (State.resetWith cfg o).fault = none ∧
    (State.resetWith cfg o).init = false ∧ (State.resetWith cfg o).txbuf = [] ∧ (State.resetWith cfg o).wire = [] ∧
    phys cfg (State.resetWith cfg o).wire = .unknown ∧
    (∀ idx vs, vs.length = cfg.m → exec (.setNode idx vs) (State.resetWith cfg o) = .refused .noStrip) ∧
    (∀ idx, exec (.getNode idx) (State.resetWith cfg o) = .refused .noStrip) ∧
    exec .write (State.resetWith cfg o) = .refused .noStrip ∧ exec .clear (State.resetWith cfg o) = .refused .noStrip) ∧
  ∃ cfg o, State.reset = State.resetWith cfg o

/-- spec/10_state.md R30, R31: every state the spec allows right after reset meets the invariant; the model's reset states are
among them, and so is `State.reset`. -/
def Obligations.ResetMeetsInvariant : Prop :=
  (∀ s : State, s.IsReset → s.Inv) ∧ (∀ cfg o, (State.resetWith cfg o).IsReset) ∧ State.reset.Inv

/-- spec/10_state.md R31 and the rules it rests on: every step from a state that meets the invariant, whether a run reaches it
or not, leads to a state that meets it: the form of the LED Buffer, the length and the padding of `TXBUF`, what a strip implies,
the bounds of the records of `WIRE`, and what a recorded fault says. -/
def Obligations.StepKeepsInvariant : Prop :=
  ∀ s t : State, s.Inv → step s = .next t → t.Inv

/-- spec/10_state.md R26, R31 (d): `WIRE` only grows; no record is ever changed or removed. -/
def Obligations.WireOnlyGrows : Prop :=
  ∀ s t : State, step s = .next t → ∃ records, t.wire = s.wire ++ records ∧ records.length ≤ 1

/-- spec/60_exceptions.md R141, spec/10_state.md R19: nothing moves `Owned` back to `Bare`, and `Bare` is left only by a
`CONSTRUCT` of a device that opened. -/
def Obligations.PhaseChangesOnlyByConstruct : Prop :=
  ∀ s t : State, step s = .next t →
    (s.phase = .owned → t.phase = .owned) ∧
    (s.phase = .bare → t.phase = .owned →
      s.devOpen = .opened ∧ ∃ cmd, s.program[s.pc]? = some cmd ∧ decode s.cfg cmd = .ok .construct)

/-- spec/10_state.md R32, spec/00_scope.md R8: no step writes the configuration or `DEV_OPEN`. -/
def Obligations.ConfigurationNeverWritten : Prop :=
  ∀ s t : State, step s = .next t → t.cfg = s.cfg ∧ t.devOpen = s.devOpen

/-! ## What the strip shows -/

/-- spec/10_state.md R27, spec/30_encoding.md R56: the strip shows `v` exactly when the last record is a completed frame of `v`
with `N` values; it is undefined exactly when the last record failed. -/
def Obligations.DisplayDecidedByLastRecord : Prop :=
  ∀ (cfg : Config) (wire : List Transfer), cfg.one ≠ cfg.zero →
    phys cfg [] = .unknown ∧
    (∀ v, phys cfg wire = .shown v ↔
      ∃ earlier, wire = earlier ++ [⟨cfg.pad ++ encodeFrame cfg v, .complete⟩] ∧ v.length = cfg.ledLen) ∧
    (phys cfg wire = .undefined ↔ ∃ earlier bytes k, wire = earlier ++ [⟨bytes, .failed k⟩])

/-- spec/43_led_strip.md R109, spec/10_state.md R27: after a `WRITE` the port completes, node `idx` of the strip shows what
`GET_NODE idx` returns; after one it fails, the strip is undefined, whatever `K` was. The invariant is a premise. -/
def Obligations.WriteUpdatesDisplay : Prop :=
  ∀ (s : State) (a : PortOutcome) (rest : List PortOutcome), s.Inv → s.StripReady → s.cfg.one ≠ s.cfg.zero →
    s.answers = a :: rest →
    ∃ t, exec .write s = .next t ∧
      match a with
      | .complete => ∃ v, phys t.cfg t.wire = .shown v ∧
          ∀ idx, idx < s.cfg.nodes → exec (.getNode idx) t = .next { t with
            results := t.results ++ [.bytes (displayedNode s.cfg v idx)], pc := t.pc + 1 }
      | .failed _ => phys t.cfg t.wire = .undefined

/-! ## Timing -/

/-- spec/70_reset_and_hazards.md R164, R165 (informative): the times of a protocol bit, a channel, a node and a frame at the
reference bit period of 64 ns. -/
def Obligations.ReferenceTimes : Prop :=
  ∀ cfg : Config, cfg.spiBitNs = 64 →
    protocolBitNs cfg = 1024 ∧ channelNs cfg = 8192 ∧ nodeNs cfg = cfg.m * 8192 ∧
    frameNs cfg = (cfg.padLen + 16 * (cfg.nodes * cfg.m)) * 512
end

