-- ==== Sys2Proof/Laws/State.lean ====
section
/-!
SUPPORT. What each update of the state does to each field: one lemma per field and update, so that no later proof unfolds a
record update.
-/
namespace Sys2Proof.Machine

/-! ### `State.returned` -/

@[simp] theorem State.returned_cfg (s : State) (r : Result) : (s.returned r).cfg = s.cfg := rfl
@[simp] theorem State.returned_phase (s : State) (r : Result) : (s.returned r).phase = s.phase := rfl
@[simp] theorem State.returned_devOpen (s : State) (r : Result) : (s.returned r).devOpen = s.devOpen := rfl
@[simp] theorem State.returned_fault (s : State) (r : Result) : (s.returned r).fault = s.fault := rfl
@[simp] theorem State.returned_ledbuf (s : State) (r : Result) : (s.returned r).ledbuf = s.ledbuf := rfl
@[simp] theorem State.returned_init (s : State) (r : Result) : (s.returned r).init = s.init := rfl
@[simp] theorem State.returned_cap (s : State) (r : Result) : (s.returned r).cap = s.cap := rfl
@[simp] theorem State.returned_txbuf (s : State) (r : Result) : (s.returned r).txbuf = s.txbuf := rfl
@[simp] theorem State.returned_wire (s : State) (r : Result) : (s.returned r).wire = s.wire := rfl
@[simp] theorem State.returned_program (s : State) (r : Result) : (s.returned r).program = s.program := rfl
@[simp] theorem State.returned_pc (s : State) (r : Result) : (s.returned r).pc = s.pc + 1 := rfl
@[simp] theorem State.returned_results (s : State) (r : Result) : (s.returned r).results = s.results ++ [r] := rfl
@[simp] theorem State.returned_answers (s : State) (r : Result) : (s.returned r).answers = s.answers := rfl
@[simp] theorem State.returned_draws (s : State) (r : Result) : (s.returned r).draws = s.draws := rfl

/-! ### `State.raised` -/

@[simp] theorem State.raised_cfg (s : State) (f : Fault) : (s.raised f).cfg = s.cfg := rfl
@[simp] theorem State.raised_phase (s : State) (f : Fault) : (s.raised f).phase = s.phase := rfl
@[simp] theorem State.raised_devOpen (s : State) (f : Fault) : (s.raised f).devOpen = s.devOpen := rfl
@[simp] theorem State.raised_fault (s : State) (f : Fault) : (s.raised f).fault = some f := rfl
@[simp] theorem State.raised_ledbuf (s : State) (f : Fault) : (s.raised f).ledbuf = s.ledbuf := rfl
@[simp] theorem State.raised_init (s : State) (f : Fault) : (s.raised f).init = s.init := rfl
@[simp] theorem State.raised_cap (s : State) (f : Fault) : (s.raised f).cap = s.cap := rfl
@[simp] theorem State.raised_txbuf (s : State) (f : Fault) : (s.raised f).txbuf = s.txbuf := rfl
@[simp] theorem State.raised_wire (s : State) (f : Fault) : (s.raised f).wire = s.wire := rfl
@[simp] theorem State.raised_program (s : State) (f : Fault) : (s.raised f).program = s.program := rfl
@[simp] theorem State.raised_pc (s : State) (f : Fault) : (s.raised f).pc = s.pc := rfl
@[simp] theorem State.raised_results (s : State) (f : Fault) : (s.raised f).results = s.results := rfl
@[simp] theorem State.raised_answers (s : State) (f : Fault) : (s.raised f).answers = s.answers := rfl
@[simp] theorem State.raised_draws (s : State) (f : Fault) : (s.raised f).draws = s.draws := rfl

/-! ### `State.storeNode` -/

@[simp] theorem State.storeNode_cfg (s : State) (idx : Nat) (vs : List Byte) : (s.storeNode idx vs).cfg = s.cfg := rfl
@[simp] theorem State.storeNode_phase (s : State) (idx : Nat) (vs : List Byte) : (s.storeNode idx vs).phase = s.phase := rfl
@[simp] theorem State.storeNode_devOpen (s : State) (idx : Nat) (vs : List Byte) : (s.storeNode idx vs).devOpen = s.devOpen := rfl
@[simp] theorem State.storeNode_fault (s : State) (idx : Nat) (vs : List Byte) : (s.storeNode idx vs).fault = s.fault := rfl
@[simp] theorem State.storeNode_ledbuf (s : State) (idx : Nat) (vs : List Byte) : (s.storeNode idx vs).ledbuf = memWrite s.ledbuf (nodeBase s.cfg idx) vs := rfl
@[simp] theorem State.storeNode_init (s : State) (idx : Nat) (vs : List Byte) : (s.storeNode idx vs).init = s.init := rfl
@[simp] theorem State.storeNode_cap (s : State) (idx : Nat) (vs : List Byte) : (s.storeNode idx vs).cap = s.cap := rfl
@[simp] theorem State.storeNode_txbuf (s : State) (idx : Nat) (vs : List Byte) : (s.storeNode idx vs).txbuf = s.txbuf := rfl
@[simp] theorem State.storeNode_wire (s : State) (idx : Nat) (vs : List Byte) : (s.storeNode idx vs).wire = s.wire := rfl
@[simp] theorem State.storeNode_program (s : State) (idx : Nat) (vs : List Byte) : (s.storeNode idx vs).program = s.program := rfl
@[simp] theorem State.storeNode_pc (s : State) (idx : Nat) (vs : List Byte) : (s.storeNode idx vs).pc = s.pc := rfl
@[simp] theorem State.storeNode_results (s : State) (idx : Nat) (vs : List Byte) : (s.storeNode idx vs).results = s.results := rfl
@[simp] theorem State.storeNode_answers (s : State) (idx : Nat) (vs : List Byte) : (s.storeNode idx vs).answers = s.answers := rfl
@[simp] theorem State.storeNode_draws (s : State) (idx : Nat) (vs : List Byte) : (s.storeNode idx vs).draws = s.draws := rfl

/-! ### `State.zeroFill` -/

@[simp] theorem State.zeroFill_cfg (s : State) : s.zeroFill.cfg = s.cfg := rfl
@[simp] theorem State.zeroFill_phase (s : State) : s.zeroFill.phase = s.phase := rfl
@[simp] theorem State.zeroFill_devOpen (s : State) : s.zeroFill.devOpen = s.devOpen := rfl
@[simp] theorem State.zeroFill_fault (s : State) : s.zeroFill.fault = s.fault := rfl
@[simp] theorem State.zeroFill_ledbuf (s : State) : s.zeroFill.ledbuf = memWrite s.ledbuf 0 (List.replicate s.cfg.ledLen 0) := rfl
@[simp] theorem State.zeroFill_init (s : State) : s.zeroFill.init = s.init := rfl
@[simp] theorem State.zeroFill_cap (s : State) : s.zeroFill.cap = s.cap := rfl
@[simp] theorem State.zeroFill_txbuf (s : State) : s.zeroFill.txbuf = s.txbuf := rfl
@[simp] theorem State.zeroFill_wire (s : State) : s.zeroFill.wire = s.wire := rfl
@[simp] theorem State.zeroFill_program (s : State) : s.zeroFill.program = s.program := rfl
@[simp] theorem State.zeroFill_pc (s : State) : s.zeroFill.pc = s.pc := rfl
@[simp] theorem State.zeroFill_results (s : State) : s.zeroFill.results = s.results := rfl
@[simp] theorem State.zeroFill_answers (s : State) : s.zeroFill.answers = s.answers := rfl
@[simp] theorem State.zeroFill_draws (s : State) : s.zeroFill.draws = s.draws := rfl

/-! ### `State.sized` -/

@[simp] theorem State.sized_cfg (s : State) (c : Nat) : (s.sized c).cfg = s.cfg := rfl
@[simp] theorem State.sized_phase (s : State) (c : Nat) : (s.sized c).phase = s.phase := rfl
@[simp] theorem State.sized_devOpen (s : State) (c : Nat) : (s.sized c).devOpen = s.devOpen := rfl
@[simp] theorem State.sized_fault (s : State) (c : Nat) : (s.sized c).fault = s.fault := rfl
@[simp] theorem State.sized_ledbuf (s : State) (c : Nat) : (s.sized c).ledbuf = s.ledbuf := rfl
@[simp] theorem State.sized_init (s : State) (c : Nat) : (s.sized c).init = true := rfl
@[simp] theorem State.sized_cap (s : State) (c : Nat) : (s.sized c).cap = c := rfl
@[simp] theorem State.sized_txbuf (s : State) (c : Nat) : (s.sized c).txbuf = s.cfg.pad ++ freePayload s.draws c := rfl
@[simp] theorem State.sized_wire (s : State) (c : Nat) : (s.sized c).wire = s.wire := rfl
@[simp] theorem State.sized_program (s : State) (c : Nat) : (s.sized c).program = s.program := rfl
@[simp] theorem State.sized_pc (s : State) (c : Nat) : (s.sized c).pc = s.pc := rfl
@[simp] theorem State.sized_results (s : State) (c : Nat) : (s.sized c).results = s.results := rfl
@[simp] theorem State.sized_answers (s : State) (c : Nat) : (s.sized c).answers = s.answers := rfl
@[simp] theorem State.sized_draws (s : State) (c : Nat) : (s.sized c).draws = s.draws + 1 := rfl

/-! ### `State.encoded` -/

@[simp] theorem State.encoded_cfg (s : State) (raw : List Byte) : (s.encoded raw).cfg = s.cfg := rfl
@[simp] theorem State.encoded_phase (s : State) (raw : List Byte) : (s.encoded raw).phase = s.phase := rfl
@[simp] theorem State.encoded_devOpen (s : State) (raw : List Byte) : (s.encoded raw).devOpen = s.devOpen := rfl
@[simp] theorem State.encoded_fault (s : State) (raw : List Byte) : (s.encoded raw).fault = s.fault := rfl
@[simp] theorem State.encoded_ledbuf (s : State) (raw : List Byte) : (s.encoded raw).ledbuf = s.ledbuf := rfl
@[simp] theorem State.encoded_init (s : State) (raw : List Byte) : (s.encoded raw).init = s.init := rfl
@[simp] theorem State.encoded_cap (s : State) (raw : List Byte) : (s.encoded raw).cap = s.cap := rfl
@[simp] theorem State.encoded_txbuf (s : State) (raw : List Byte) : (s.encoded raw).txbuf = overwrite s.txbuf s.cfg.padLen (encodeFrame s.cfg raw) := rfl
@[simp] theorem State.encoded_wire (s : State) (raw : List Byte) : (s.encoded raw).wire = s.wire := rfl
@[simp] theorem State.encoded_program (s : State) (raw : List Byte) : (s.encoded raw).program = s.program := rfl
@[simp] theorem State.encoded_pc (s : State) (raw : List Byte) : (s.encoded raw).pc = s.pc := rfl
@[simp] theorem State.encoded_results (s : State) (raw : List Byte) : (s.encoded raw).results = s.results := rfl
@[simp] theorem State.encoded_answers (s : State) (raw : List Byte) : (s.encoded raw).answers = s.answers := rfl
@[simp] theorem State.encoded_draws (s : State) (raw : List Byte) : (s.encoded raw).draws = s.draws := rfl

/-! ### `State.taken` -/

@[simp] theorem State.taken_cfg (s : State) : s.taken.cfg = s.cfg := rfl
@[simp] theorem State.taken_phase (s : State) : s.taken.phase = .owned := rfl
@[simp] theorem State.taken_devOpen (s : State) : s.taken.devOpen = s.devOpen := rfl
@[simp] theorem State.taken_fault (s : State) : s.taken.fault = s.fault := rfl
@[simp] theorem State.taken_ledbuf (s : State) : s.taken.ledbuf = s.ledbuf := rfl
@[simp] theorem State.taken_init (s : State) : s.taken.init = s.init := rfl
@[simp] theorem State.taken_cap (s : State) : s.taken.cap = s.cap := rfl
@[simp] theorem State.taken_txbuf (s : State) : s.taken.txbuf = s.txbuf := rfl
@[simp] theorem State.taken_wire (s : State) : s.taken.wire = s.wire := rfl
@[simp] theorem State.taken_program (s : State) : s.taken.program = s.program := rfl
@[simp] theorem State.taken_pc (s : State) : s.taken.pc = s.pc := rfl
@[simp] theorem State.taken_results (s : State) : s.taken.results = s.results := rfl
@[simp] theorem State.taken_answers (s : State) : s.taken.answers = s.answers := rfl
@[simp] theorem State.taken_draws (s : State) : s.taken.draws = s.draws := rfl

/-! ### `State.answered` -/

@[simp] theorem State.answered_cfg (s : State) : s.answered.cfg = s.cfg := by
  unfold State.answered; split <;> rfl
@[simp] theorem State.answered_phase (s : State) : s.answered.phase = s.phase := by
  unfold State.answered; split <;> rfl
@[simp] theorem State.answered_devOpen (s : State) : s.answered.devOpen = s.devOpen := by
  unfold State.answered; split <;> rfl
@[simp] theorem State.answered_fault (s : State) : s.answered.fault = s.fault := by
  unfold State.answered; split <;> rfl
@[simp] theorem State.answered_ledbuf (s : State) : s.answered.ledbuf = s.ledbuf := by
  unfold State.answered; split <;> rfl
@[simp] theorem State.answered_init (s : State) : s.answered.init = s.init := by
  unfold State.answered; split <;> rfl
@[simp] theorem State.answered_cap (s : State) : s.answered.cap = s.cap := by
  unfold State.answered; split <;> rfl
@[simp] theorem State.answered_txbuf (s : State) : s.answered.txbuf = s.txbuf := by
  unfold State.answered; split <;> rfl
@[simp] theorem State.answered_wire (s : State) : s.answered.wire = s.wire := by
  unfold State.answered; split <;> rfl
@[simp] theorem State.answered_program (s : State) : s.answered.program = s.program := by
  unfold State.answered; split <;> rfl
@[simp] theorem State.answered_pc (s : State) : s.answered.pc = s.pc := by
  unfold State.answered; split <;> rfl
@[simp] theorem State.answered_results (s : State) : s.answered.results = s.results := by
  unfold State.answered; split <;> rfl
@[simp] theorem State.answered_answers (s : State) : s.answered.answers = s.answers.tail := by
  cases h : s.answers <;> simp [State.answered, h]
@[simp] theorem State.answered_draws (s : State) :
    s.answered.draws = if s.answers = [] then s.draws + 1 else s.draws := by
  cases h : s.answers <;> simp [State.answered, h]

/-! ### `State.portWrite` -/

@[simp] theorem State.portWrite_cfg (s : State) (bytes : List Byte) : (s.portWrite bytes).cfg = s.cfg :=
  s.answered_cfg
@[simp] theorem State.portWrite_phase (s : State) (bytes : List Byte) : (s.portWrite bytes).phase = s.phase :=
  s.answered_phase
@[simp] theorem State.portWrite_devOpen (s : State) (bytes : List Byte) : (s.portWrite bytes).devOpen = s.devOpen :=
  s.answered_devOpen
@[simp] theorem State.portWrite_fault (s : State) (bytes : List Byte) : (s.portWrite bytes).fault = s.fault :=
  s.answered_fault
@[simp] theorem State.portWrite_ledbuf (s : State) (bytes : List Byte) : (s.portWrite bytes).ledbuf = s.ledbuf :=
  s.answered_ledbuf
@[simp] theorem State.portWrite_init (s : State) (bytes : List Byte) : (s.portWrite bytes).init = s.init :=
  s.answered_init
@[simp] theorem State.portWrite_cap (s : State) (bytes : List Byte) : (s.portWrite bytes).cap = s.cap :=
  s.answered_cap
@[simp] theorem State.portWrite_txbuf (s : State) (bytes : List Byte) : (s.portWrite bytes).txbuf = s.txbuf :=
  s.answered_txbuf
@[simp] theorem State.portWrite_program (s : State) (bytes : List Byte) : (s.portWrite bytes).program = s.program :=
  s.answered_program
@[simp] theorem State.portWrite_pc (s : State) (bytes : List Byte) : (s.portWrite bytes).pc = s.pc :=
  s.answered_pc
@[simp] theorem State.portWrite_results (s : State) (bytes : List Byte) : (s.portWrite bytes).results = s.results :=
  s.answered_results
@[simp] theorem State.portWrite_wire (s : State) (bytes : List Byte) :
    (s.portWrite bytes).wire = s.wire ++ [⟨bytes, s.portOutcome bytes.length⟩] := rfl
@[simp] theorem State.portWrite_answers (s : State) (bytes : List Byte) : (s.portWrite bytes).answers = s.answers.tail :=
  s.answered_answers
@[simp] theorem State.portWrite_draws (s : State) (bytes : List Byte) :
    (s.portWrite bytes).draws = if s.answers = [] then s.draws + 1 else s.draws := s.answered_draws

/-! ### `State.transmit` -/

@[simp] theorem State.transmit_cfg (s : State) (bytes : List Byte) : (s.transmit bytes).cfg = s.cfg :=
  s.answered_cfg
@[simp] theorem State.transmit_phase (s : State) (bytes : List Byte) : (s.transmit bytes).phase = s.phase :=
  s.answered_phase
@[simp] theorem State.transmit_devOpen (s : State) (bytes : List Byte) : (s.transmit bytes).devOpen = s.devOpen :=
  s.answered_devOpen
@[simp] theorem State.transmit_fault (s : State) (bytes : List Byte) : (s.transmit bytes).fault = s.fault :=
  s.answered_fault
@[simp] theorem State.transmit_ledbuf (s : State) (bytes : List Byte) : (s.transmit bytes).ledbuf = s.ledbuf :=
  s.answered_ledbuf
@[simp] theorem State.transmit_init (s : State) (bytes : List Byte) : (s.transmit bytes).init = s.init :=
  s.answered_init
@[simp] theorem State.transmit_cap (s : State) (bytes : List Byte) : (s.transmit bytes).cap = s.cap :=
  s.answered_cap
@[simp] theorem State.transmit_txbuf (s : State) (bytes : List Byte) : (s.transmit bytes).txbuf = s.txbuf :=
  s.answered_txbuf
@[simp] theorem State.transmit_program (s : State) (bytes : List Byte) : (s.transmit bytes).program = s.program :=
  s.answered_program
@[simp] theorem State.transmit_wire (s : State) (bytes : List Byte) :
    (s.transmit bytes).wire = s.wire ++ [⟨bytes, s.portOutcome bytes.length⟩] := rfl
@[simp] theorem State.transmit_answers (s : State) (bytes : List Byte) : (s.transmit bytes).answers = s.answers.tail :=
  s.answered_answers
@[simp] theorem State.transmit_draws (s : State) (bytes : List Byte) :
    (s.transmit bytes).draws = if s.answers = [] then s.draws + 1 else s.draws := s.answered_draws
@[simp] theorem State.transmit_results (s : State) (bytes : List Byte) : (s.transmit bytes).results =
    s.results ++ [transmitResult bytes.length (s.portOutcome bytes.length)] := by
  simp [State.transmit]
@[simp] theorem State.transmit_pc (s : State) (bytes : List Byte) : (s.transmit bytes).pc = s.pc + 1 := by
  simp [State.transmit]

end Sys2Proof.Machine
end

