-- ==== Sys2Proof/Laws/Memory.lean ====
section
/-!
SUPPORT. The LED Buffer: a read after a write to the same byte gives the byte written, a write leaves every other byte alone,
and every operation keeps the form of the memory.
-/
namespace Sys2Proof.Machine

/-! ### One byte -/

theorem memGet_memErase (mem : Memory) (a x : Nat) :
    memGet (memErase mem a) x = if x = a then 0 else memGet mem x := by
  induction mem with
  | nil => simp [memErase, memGet]
  | cons c rest ih =>
    obtain ⟨k, v⟩ := c
    by_cases hk : k = a
    · subst hk
      simp only [memErase, ne_eq, decide_not, List.filter_cons, decide_true, Bool.not_true, Bool.false_eq_true, if_false]
      simp only [memErase, ne_eq, decide_not] at ih
      rw [ih]
      by_cases hx : x = k
      · simp [hx]
      · simp [memGet, hx, Ne.symm hx]
    · simp only [memErase, ne_eq, decide_not, List.filter_cons, hk, decide_false, Bool.not_false, if_true, memGet]
      simp only [memErase, ne_eq, decide_not] at ih
      rw [ih]
      by_cases hx : k = x
      · subst hx; simp [hk]
      · simp [hx]

theorem memGet_memInsert (a : Nat) (b : Byte) (mem : Memory) (x : Nat) (h : ∀ c ∈ mem, c.1 ≠ a) :
    memGet (memInsert a b mem) x = if x = a then b else memGet mem x := by
  induction mem with
  | nil => simp [memInsert, memGet, eq_comm]
  | cons c rest ih =>
    obtain ⟨k, v⟩ := c
    have hk : k ≠ a := h (k, v) (by simp)
    simp only [memInsert]
    split
    · simp only [memGet, eq_comm]
    · simp only [memGet, ih fun c hc => h c (by simp [hc])]
      by_cases hx : k = x
      · subst hx; simp [hk]
      · simp [hx]

theorem memErase_keys (mem : Memory) (a : Nat) : ∀ c ∈ memErase mem a, c ∈ mem ∧ c.1 ≠ a := by
  intro c hc
  simpa [memErase] using hc

/-- Reading one byte after a write of one byte. -/
theorem memGet_memSet (mem : Memory) (a : Nat) (b : Byte) (x : Nat) :
    memGet (memSet mem a b) x = if x = a then b else memGet mem x := by
  unfold memSet
  split
  · rename_i hb; rw [memGet_memErase, hb]
  · rw [memGet_memInsert a b _ x fun c hc => (memErase_keys mem a c hc).2, memGet_memErase]
    by_cases hx : x = a <;> simp [hx]

/-! ### The form of the memory -/

theorem memErase_wf {mem : Memory} (h : Memory.wf mem) (a : Nat) : Memory.wf (memErase mem a) :=
  ⟨h.1.sublist List.filter_sublist, fun c hc => h.2 c (memErase_keys mem a c hc).1⟩

theorem mem_memInsert (a : Nat) (b : Byte) (mem : Memory) (c : Host.Cell) :
    c ∈ memInsert a b mem ↔ c = (a, b) ∨ c ∈ mem := by
  induction mem with
  | nil => simp [memInsert]
  | cons d rest ih =>
    simp only [memInsert]
    split
    · simp
    · simp only [List.mem_cons, ih]; tauto

theorem memInsert_rising (a : Nat) (b : Byte) (mem : Memory) (h : mem.Pairwise (fun x y => x.1 < y.1))
    (ha : ∀ c ∈ mem, c.1 ≠ a) : (memInsert a b mem).Pairwise (fun x y => x.1 < y.1) := by
  induction mem with
  | nil => simp [memInsert]
  | cons d rest ih =>
    have hd := List.pairwise_cons.1 h
    simp only [memInsert]
    split
    · rename_i had
      refine List.pairwise_cons.2 ⟨fun c hc => ?_, h⟩
      rcases List.mem_cons.1 hc with rfl | hc
      · exact had
      · exact lt_trans had (hd.1 c hc)
    · rename_i had
      refine List.pairwise_cons.2 ⟨fun c hc => ?_, ih hd.2 fun c hc => ha c (by simp [hc])⟩
      rcases (mem_memInsert a b rest c).1 hc with rfl | hc
      · have := ha d (by simp); simp only; omega
      · exact hd.1 c hc

theorem memSet_wf {mem : Memory} (h : Memory.wf mem) (a : Nat) (b : Byte) : Memory.wf (memSet mem a b) := by
  unfold memSet
  split
  · exact memErase_wf h a
  · rename_i hb
    have he := memErase_wf h a
    refine ⟨memInsert_rising a b _ he.1 fun c hc => (memErase_keys mem a c hc).2, fun c hc => ?_⟩
    rcases (mem_memInsert a b _ c).1 hc with rfl | hc
    · exact hb
    · exact he.2 c hc

/-- What a memory lists after a write: the byte written, or what it listed before. -/
theorem mem_memSet {mem : Memory} {a : Nat} {b : Byte} {c : Host.Cell} (h : c ∈ memSet mem a b) : c.1 = a ∨ c ∈ mem := by
  unfold memSet at h
  split at h
  · exact .inr (memErase_keys mem a c h).1
  · rcases (mem_memInsert a b _ c).1 h with rfl | h
    · exact .inl rfl
    · exact .inr (memErase_keys mem a c h).1

/-! ### Sequences of bytes -/

@[simp] theorem memRead_length (mem : Memory) (addr n : Nat) : (memRead mem addr n).length = n := by
  induction n generalizing addr with
  | zero => rfl
  | succ n ih => simp [memRead, ih]

theorem memRead_getElem? (mem : Memory) (addr n j : Nat) (h : j < n) :
    (memRead mem addr n)[j]? = some (memGet mem (addr + j)) := by
  induction n generalizing addr j with
  | zero => omega
  | succ n ih =>
    cases j with
    | zero => simp [memRead]
    | succ j => simp [memRead, ih (addr + 1) j (by omega)]; congr 1; omega

/-- Reads of sequences agree where the bytes do. -/
theorem memRead_congr {mem mem' : Memory} {addr n : Nat}
    (h : ∀ a, addr ≤ a → a < addr + n → memGet mem a = memGet mem' a) : memRead mem addr n = memRead mem' addr n := by
  induction n generalizing addr with
  | zero => rfl
  | succ n ih =>
    simp only [memRead]
    rw [h addr (by omega) (by omega), ih fun a h1 h2 => h a (by omega) (by omega)]

theorem memRead_append (mem : Memory) (addr n k : Nat) :
    memRead mem addr (n + k) = memRead mem addr n ++ memRead mem (addr + n) k := by
  induction n generalizing addr with
  | zero => simp [memRead]
  | succ n ih =>
    rw [show n + 1 + k = (n + k) + 1 by omega]
    simp only [memRead, ih, List.cons_append]
    rw [show addr + 1 + n = addr + (n + 1) by omega]

/-- Reading one byte after a write of a sequence. -/
theorem memGet_memWrite (mem : Memory) (addr : Nat) (bs : List Byte) (x : Nat) :
    memGet (memWrite mem addr bs) x =
      if addr ≤ x ∧ x < addr + bs.length then bs.getD (x - addr) 0 else memGet mem x := by
  induction bs generalizing mem addr with
  | nil => simp only [memWrite, List.length_nil]; rw [if_neg (by omega)]
  | cons b bs ih =>
    simp only [memWrite, ih, memGet_memSet, List.length_cons]
    by_cases h1 : x = addr
    · subst h1
      rw [if_neg (by omega), if_pos rfl, if_pos (by omega)]; simp
    · by_cases h2 : addr + 1 ≤ x ∧ x < addr + 1 + bs.length
      · rw [if_pos h2, if_pos (by omega), show x - addr = (x - (addr + 1)) + 1 by omega]; simp
      · rw [if_neg h2, if_neg h1, if_neg (by omega)]

theorem memGet_memWrite_outside (mem : Memory) (addr : Nat) (bs : List Byte) (x : Nat)
    (h : x < addr ∨ addr + bs.length ≤ x) : memGet (memWrite mem addr bs) x = memGet mem x := by
  rw [memGet_memWrite, if_neg (by omega)]

theorem memGet_memWrite_inside (mem : Memory) (addr : Nat) (bs : List Byte) (j : Nat) (v : Byte) (h : bs[j]? = some v) :
    memGet (memWrite mem addr bs) (addr + j) = v := by
  have hj : j < bs.length := (List.getElem?_eq_some_iff.1 h).1
  rw [memGet_memWrite, if_pos (by omega), show addr + j - addr = j by omega]
  simp [List.getD, h]

/-- A sequence just written reads back. -/
theorem memRead_memWrite (mem : Memory) (addr : Nat) (bs : List Byte) :
    memRead (memWrite mem addr bs) addr bs.length = bs := by
  apply List.ext_getElem?
  intro j
  by_cases hj : j < bs.length
  · rw [memRead_getElem? _ _ _ _ hj, memGet_memWrite_inside _ _ _ j bs[j] (by simp [hj])]; simp [hj]
  · rw [List.getElem?_eq_none (by simp; omega), List.getElem?_eq_none (by omega)]

theorem memWrite_wf {mem : Memory} (h : Memory.wf mem) (addr : Nat) (bs : List Byte) :
    Memory.wf (memWrite mem addr bs) := by
  induction bs generalizing mem addr with
  | nil => exact h
  | cons b bs ih => exact ih (memSet_wf h addr b) (addr + 1)

theorem mem_memWrite {mem : Memory} {addr : Nat} {bs : List Byte} {c : Host.Cell} (h : c ∈ memWrite mem addr bs) :
    (addr ≤ c.1 ∧ c.1 < addr + bs.length) ∨ c ∈ mem := by
  induction bs generalizing mem addr with
  | nil => exact .inr h
  | cons b bs ih =>
    rcases ih h with h | h
    · left; simp only [List.length_cons]; omega
    · rcases mem_memSet h with h | h
      · left; simp only [List.length_cons]; omega
      · exact .inr h

theorem memWrite_append (mem : Memory) (addr : Nat) (bs cs : List Byte) :
    memWrite mem addr (bs ++ cs) = memWrite (memWrite mem addr bs) (addr + bs.length) cs := by
  induction bs generalizing mem addr with
  | nil => simp [memWrite]
  | cons b bs ih => simp only [List.cons_append, memWrite, ih, List.length_cons]; congr 1; omega

/-! ### Equal memories are equal data -/

theorem memGet_of_mem {mem : Memory} (h : mem.Pairwise (fun x y => x.1 < y.1)) {c : Host.Cell} (hc : c ∈ mem) :
    memGet mem c.1 = c.2 := by
  induction mem with
  | nil => simp at hc
  | cons d rest ih =>
    have hd := List.pairwise_cons.1 h
    simp only [memGet]
    rcases List.mem_cons.1 hc with rfl | hc
    · simp
    · rw [if_neg (by have := hd.1 c hc; omega)]; exact ih hd.2 hc

theorem mem_of_memGet {mem : Memory} {a : Nat} (h : memGet mem a ≠ 0) : (a, memGet mem a) ∈ mem := by
  induction mem with
  | nil => simp [memGet] at h
  | cons d rest ih =>
    obtain ⟨k, v⟩ := d
    simp only [memGet] at h ⊢
    split
    · rename_i hk; simp [hk]
    · rename_i hk; rw [if_neg hk] at h; exact List.mem_cons_of_mem _ (ih h)

/-- Two memories in the form of the model that read alike are equal. -/
theorem memory_ext {mem mem' : Memory} (h : Memory.wf mem) (h' : Memory.wf mem') (hg : ∀ a, memGet mem a = memGet mem' a) :
    mem = mem' := by
  have sub : ∀ {m m' : Memory}, Memory.wf m → Memory.wf m' → (∀ a, memGet m a = memGet m' a) → ∀ c ∈ m, c ∈ m' := by
    intro m m' hm _ hmm c hc
    have h1 := memGet_of_mem hm.1 hc
    have h2 : memGet m' c.1 ≠ 0 := by rw [← hmm, h1]; exact hm.2 c hc
    have h3 := mem_of_memGet h2
    rwa [← hmm, h1] at h3
  have nodup : ∀ {m : Memory}, Memory.wf m → m.Nodup := fun hm =>
    hm.1.imp fun {x y} hxy => by rintro rfl; exact lt_irrefl _ hxy
  have hperm : mem.Perm mem' :=
    (List.perm_ext_iff_of_nodup (nodup h) (nodup h')).2 fun c => ⟨sub h h' hg c, sub h' h (fun a => (hg a).symm) c⟩
  exact hperm.eq_of_pairwise (fun a b _ _ h1 h2 => absurd h1 (by omega)) h.1 h'.1

end Sys2Proof.Machine
end

