-- ==== Sys2Proof/Laws/Waveform.lean ====
section
/-!
SUPPORT. Small lemmas of the waveform encoding: lengths, units, and the two directions of its inverse.
-/
namespace Sys2Proof.Machine

@[simp] theorem pxLen_eq : pxLen = 16 := rfl

@[simp] theorem Pattern_bytes_length (p : Pattern) : p.bytes.length = 2 := rfl

theorem Pattern_ext_bytes {p q : Pattern} (h : p.bytes = q.bytes) : p = q := by
  cases p; cases q; simpa [Pattern.bytes] using h

/-- The extraction is the bit of weight `7 - b`. -/
theorem bitAt_eq_one_iff (v : Byte) (b : Nat) : bitAt v b = 1 ↔ v.getLsbD (7 - b) = true := by
  unfold bitAt
  constructor
  · intro h
    have := congrArg (fun x : Byte => x.getLsbD 0) h
    simpa using this
  · intro h
    apply BitVec.eq_of_getLsbD_eq
    intro i hi
    by_cases h0 : i = 0
    · subst h0; simpa using h
    · have : (1#8).getLsbD i = false := by
        simp [BitVec.getLsbD_one, h0]
      simp [this]

theorem pat_bitAt (cfg : Config) (v : Byte) (b : Nat) :
    pat cfg (bitAt v b) = if v.getLsbD (7 - b) then cfg.one else cfg.zero := by
  unfold pat; simp only [bitAt_eq_one_iff]

/-- The 16 bytes of a channel byte, unit by unit. -/
theorem encodePx_units (cfg : Config) (v : Byte) : encodePx cfg v =
    encodeUnit cfg (bitAt v 0) ++ encodeUnit cfg (bitAt v 1) ++ encodeUnit cfg (bitAt v 2) ++ encodeUnit cfg (bitAt v 3) ++
    encodeUnit cfg (bitAt v 4) ++ encodeUnit cfg (bitAt v 5) ++ encodeUnit cfg (bitAt v 6) ++ encodeUnit cfg (bitAt v 7) := by
  simp [encodePx, bitsPerPx, List.range_succ]

@[simp] theorem encodePx_length (cfg : Config) (v : Byte) : (encodePx cfg v).length = 16 := by
  simp [encodePx_units, encodeUnit]

@[simp] theorem encodeFrame_nil (cfg : Config) : encodeFrame cfg [] = [] := rfl

theorem encodeFrame_cons (cfg : Config) (v : Byte) (raw : List Byte) :
    encodeFrame cfg (v :: raw) = encodePx cfg v ++ encodeFrame cfg raw := rfl

theorem encodeFrame_append (cfg : Config) (raw raw' : List Byte) :
    encodeFrame cfg (raw ++ raw') = encodeFrame cfg raw ++ encodeFrame cfg raw' := by
  simp [encodeFrame]

@[simp] theorem encodeFrame_length (cfg : Config) (raw : List Byte) : (encodeFrame cfg raw).length = 16 * raw.length := by
  induction raw with
  | nil => rfl
  | cons v raw ih => simp [encodeFrame_cons, ih]; omega

theorem encodeNode_eq_encodeFrame (cfg : Config) (vs : List Byte) : encodeNode cfg vs = encodeFrame cfg vs := rfl

/-- The encoding of channel byte `j` stands at offset `16 * j`. -/
theorem encodeFrame_slice (cfg : Config) (raw : List Byte) (j : Nat) (v : Byte) (h : raw[j]? = some v) :
    ((encodeFrame cfg raw).drop (16 * j)).take 16 = encodePx cfg v := by
  induction raw generalizing j with
  | nil => simp at h
  | cons w raw ih =>
    rw [encodeFrame_cons]
    cases j with
    | zero =>
      simp only [List.getElem?_cons_zero, Option.some.injEq] at h
      subst h
      simp
    | succ j =>
      rw [show 16 * (j + 1) = 16 + 16 * j by omega, ← List.drop_drop, List.drop_left' (by simp)]
      exact ih j (by simpa using h)

/-- The bit a unit stands for decides the pattern. -/
def bitPattern (cfg : Config) (x : Bool) : Pattern := if x then cfg.one else cfg.zero

/-- The bits of a channel byte in transmission order. -/
def byteUnits (v : Byte) : List Bool := (List.range 8).map fun b => v.getLsbD (7 - b)

theorem encodePx_bits (cfg : Config) (v : Byte) :
    encodePx cfg v = (byteUnits v).flatMap fun x => (bitPattern cfg x).bytes := by
  simp only [encodePx, byteUnits, bitsPerPx, encodeUnit, pat_bitAt, List.flatMap_map, bitPattern]

theorem encodeFrame_bits (cfg : Config) (raw : List Byte) :
    encodeFrame cfg raw = (raw.flatMap byteUnits).flatMap fun x => (bitPattern cfg x).bytes := by
  induction raw with
  | nil => rfl
  | cons v raw ih => rw [encodeFrame_cons, List.flatMap_cons, List.flatMap_append, ← ih, encodePx_bits]

@[simp] theorem byteUnits_length (v : Byte) : (byteUnits v).length = 8 := by simp [byteUnits]

/-- The two bytes of position `b`. -/
theorem encodePx_getElem? (cfg : Config) (v : Byte) (b : Nat) (hb : b < 8) :
    (encodePx cfg v)[2 * b]? = some (bitPattern cfg (v.getLsbD (7 - b))).fst ∧
    (encodePx cfg v)[2 * b + 1]? = some (bitPattern cfg (v.getLsbD (7 - b))).snd := by
  rw [encodePx_units]
  simp only [encodeUnit, pat_bitAt, Pattern.bytes]
  obtain rfl | rfl | rfl | rfl | rfl | rfl | rfl | rfl : b = 0 ∨ b = 1 ∨ b = 2 ∨ b = 3 ∨ b = 4 ∨ b = 5 ∨ b = 6 ∨ b = 7 := by
    omega
  all_goals exact ⟨rfl, rfl⟩

/-! ### The inverse -/

theorem decodeUnit_bitPattern {cfg : Config} (h : cfg.one ≠ cfg.zero) (x : Bool) :
    decodeUnit cfg (bitPattern cfg x).fst (bitPattern cfg x).snd = some x := by
  cases x
  · simp [decodeUnit, bitPattern, Ne.symm h]
  · simp [decodeUnit, bitPattern]

theorem decodeUnit_some {cfg : Config} {a b : Byte} {x : Bool} (h : decodeUnit cfg a b = some x) :
    [a, b] = (bitPattern cfg x).bytes := by
  unfold decodeUnit at h
  split at h
  · rename_i h1; cases h; simp [bitPattern, ← h1, Pattern.bytes]
  · split at h
    · rename_i h1; cases h; simp [bitPattern, ← h1, Pattern.bytes]
    · cases h

theorem decodeUnits_bits {cfg : Config} (h : cfg.one ≠ cfg.zero) (xs : List Bool) :
    decodeUnits cfg (xs.flatMap fun x => (bitPattern cfg x).bytes) = some xs := by
  induction xs with
  | nil => rfl
  | cons x xs ih =>
    simp only [List.flatMap_cons, Pattern.bytes, List.cons_append, List.nil_append, decodeUnits] at ih ⊢
    rw [decodeUnit_bitPattern h, ih]

theorem decodeUnits_some {cfg : Config} : ∀ (bs : List Byte) (xs : List Bool), decodeUnits cfg bs = some xs →
    bs = xs.flatMap fun x => (bitPattern cfg x).bytes
  | [], xs, h => by simp only [decodeUnits, Option.some.injEq] at h; subst h; rfl
  | [_], xs, h => by simp [decodeUnits] at h
  | a :: b :: rest, xs, h => by
    rw [decodeUnits] at h
    split at h
    · rename_i x ys hx hys
      cases h
      rw [List.flatMap_cons, ← decodeUnits_some rest ys hys, ← decodeUnit_some hx]; rfl
    · cases h

/-- A byte is the pack of its bits, most significant first. -/
theorem packByte_getLsbD : ∀ v : Byte, packByte (v.getLsbD 7) (v.getLsbD 6) (v.getLsbD 5) (v.getLsbD 4) (v.getLsbD 3)
    (v.getLsbD 2) (v.getLsbD 1) (v.getLsbD 0) = v := by
  decide +kernel

theorem byteUnits_packByte : ∀ x0 x1 x2 x3 x4 x5 x6 x7 : Bool,
    byteUnits (packByte x0 x1 x2 x3 x4 x5 x6 x7) = [x0, x1, x2, x3, x4, x5, x6, x7] := by
  decide +kernel

theorem packBytes_units (raw : List Byte) : packBytes (raw.flatMap byteUnits) = some raw := by
  induction raw with
  | nil => rfl
  | cons v raw ih =>
    have : byteUnits v = [v.getLsbD 7, v.getLsbD 6, v.getLsbD 5, v.getLsbD 4, v.getLsbD 3, v.getLsbD 2, v.getLsbD 1,
      v.getLsbD 0] := rfl
    simp only [List.flatMap_cons, this, List.cons_append, List.nil_append, packBytes, ih, Option.map_some,
      packByte_getLsbD]

theorem packBytes_some : ∀ (xs : List Bool) (raw : List Byte), packBytes xs = some raw → xs = raw.flatMap byteUnits
  | [], raw, h => by simp only [packBytes, Option.some.injEq] at h; subst h; rfl
  | x0 :: x1 :: x2 :: x3 :: x4 :: x5 :: x6 :: x7 :: rest, raw, h => by
    simp only [packBytes, Option.map_eq_some_iff] at h
    obtain ⟨ys, hy, rfl⟩ := h
    rw [List.flatMap_cons, byteUnits_packByte, ← packBytes_some rest ys hy]; rfl
  | [_], _, h | [_, _], _, h | [_, _, _], _, h | [_, _, _, _], _, h | [_, _, _, _, _], _, h | [_, _, _, _, _, _], _, h
  | [_, _, _, _, _, _, _], _, h => by simp [packBytes] at h

end Sys2Proof.Machine
end

