-- ==== Sys2Proof/Laws/Ops.lean ====
section
/-!
SUPPORT. For each shared operation, once, everything it can do.
-/
namespace Sys2Proof.Machine

/-! ### Admission -/

/-- An admitted operation answers its effect, and only where the block has not faulted and no condition holds. -/
theorem admit_next_iff {s t e : State} {conditions : List (Bool × Refusal)} :
    s.whenAdmitted conditions e = .next t ↔ s.fault = none ∧ firstRefusal conditions = none ∧ e = t := by
  unfold State.whenAdmitted
  cases s.fault with
  | some f => simp
  | none => cases firstRefusal conditions <;> simp

/-- A refusal is that of the first condition that holds, where the block has not faulted. -/
theorem admit_refused_iff {s e : State} {conditions : List (Bool × Refusal)} {r : Refusal} :
    s.whenAdmitted conditions e = .refused r ↔ s.fault = none ∧ firstRefusal conditions = some r := by
  unfold State.whenAdmitted
  cases s.fault with
  | some f => simp
  | none => cases firstRefusal conditions <;> simp

/-- A fault answered is the recorded one. -/
theorem admit_fault_iff {s e : State} {conditions : List (Bool × Refusal)} {f : Fault} :
    s.whenAdmitted conditions e = .fault f ↔ s.fault = some f := by
  unfold State.whenAdmitted
  cases s.fault with
  | some f => simp
  | none => cases firstRefusal conditions <;> simp

theorem admit_of_ready {s e : State} {conditions : List (Bool × Refusal)} (hf : s.fault = none)
    (hc : firstRefusal conditions = none) : s.whenAdmitted conditions e = .next e :=
  admit_next_iff.2 ⟨hf, hc, rfl⟩

@[simp] theorem firstRefusal_nil : firstRefusal [] = none := rfl
@[simp] theorem firstRefusal_cons (b : Bool) (r : Refusal) (rest : List (Bool × Refusal)) :
    firstRefusal ((b, r) :: rest) = if b = true then some r else firstRefusal rest := by
  cases b <;> rfl

/-! ### The port -/

/-- Every outcome of a `PortWrite` is `Complete`, or `Failed(K)` with `K` at most the length. -/
theorem clampOutcome_cases (len : Nat) (a : PortOutcome) :
    clampOutcome len a = .complete ∨ ∃ k, k ≤ len ∧ clampOutcome len a = .failed k := by
  cases a with
  | complete => exact .inl rfl
  | failed k => exact .inr ⟨min k len, Nat.min_le_right .., rfl⟩

theorem clampOutcome_failed {len k : Nat} (h : k ≤ len) : clampOutcome len (.failed k) = .failed k := by
  simp [clampOutcome, Nat.min_eq_left h]

theorem portOutcome_cases (s : State) (len : Nat) :
    s.portOutcome len = .complete ∨ ∃ k, k ≤ len ∧ s.portOutcome len = .failed k :=
  clampOutcome_cases len s.nextAnswer

theorem portOutcome_of_answers {s : State} {a : PortOutcome} {rest : List PortOutcome} (h : s.answers = a :: rest)
    (len : Nat) : s.portOutcome len = clampOutcome len a := by
  simp [State.portOutcome, State.nextAnswer, h]

theorem transmitResult_eq (len : Nat) (o : PortOutcome) :
    transmitResult len o = if o = .complete then .done else .transmissionError len := by
  cases o <;> simp [transmitResult]

/-- What a transmit leaves, written out. -/
theorem transmit_eq (s : State) (bytes : List Byte) :
    ∃ o rest d, (o = .complete ∨ ∃ k, k ≤ bytes.length ∧ o = .failed k) ∧ s.transmit bytes = { s with
      wire := s.wire ++ [⟨bytes, o⟩], answers := rest, draws := d,
      results := s.results ++ [if o = .complete then .done else .transmissionError bytes.length], pc := s.pc + 1 } := by
  refine ⟨s.portOutcome bytes.length, s.answered.answers, s.answered.draws, portOutcome_cases s _, ?_⟩
  rw [← transmitResult_eq]
  unfold State.transmit State.portWrite State.returned State.answered
  split <;> rfl

/-! ### The transmission buffer -/

@[simp] theorem freePayload_length (draw c : Nat) : (freePayload draw c).length = 16 * c := by
  simp [freePayload]; omega

theorem bufferLen_eq (cfg : Config) (c : Nat) : cfg.bufferLen c = cfg.padLen + 16 * c := by
  simp [Config.bufferLen]; omega

theorem frameLen_eq (cfg : Config) : cfg.frameLen = cfg.padLen + 16 * (cfg.nodes * cfg.m) := bufferLen_eq cfg _

theorem overwrite_length {buf bytes : List Byte} {off : Nat} (h : off + bytes.length ≤ buf.length) :
    (overwrite buf off bytes).length = buf.length := by
  simp [overwrite]; omega

/-- Encoding as many bytes as a sized buffer takes leaves the padding followed by the frame. -/
theorem encoded_txbuf_of_fits {s : State} {raw : List Byte} (hl : s.txbuf.length = s.cfg.bufferLen raw.length)
    (hp : s.txbuf.take s.cfg.padLen = s.cfg.pad) : (s.encoded raw).txbuf = s.cfg.pad ++ encodeFrame s.cfg raw := by
  simp only [State.encoded_txbuf, overwrite, hp]
  rw [List.drop_eq_nil_of_le (by rw [hl, bufferLen_eq, encodeFrame_length]), List.append_nil]

/-! ### Steps -/

/-- A step that answers a next state ran an operation, or found the host's list at its end. -/
theorem step_next {s t : State} (h : step s = .next t) :
    (fetch s = .idle ∧ t = s) ∨ ∃ i, fetch s = .operation i ∧ exec i s = .next t := by
  unfold step at h
  split at h
  · cases h
  · cases h
  · rename_i hf; cases h; exact .inl ⟨hf, rfl⟩
  · rename_i i hf; exact .inr ⟨i, hf, h⟩

/-- The operation a step runs is the one the host's next command decodes to. -/
theorem fetch_operation {s : State} {i : Instr} (h : fetch s = .operation i) :
    s.fault = none ∧ s.cfg.WellShaped ∧ s.cfg.Framable ∧ ∃ cmd, s.program[s.pc]? = some cmd ∧ decode s.cfg cmd = .ok i := by
  unfold fetch State.nextCommand at h
  split at h
  · cases h
  · rename_i hf
    split at h
    · rename_i hc
      split at h
      · cases h
      · rename_i cmd hcmd
        split at h
        · rename_i j hj; cases h; exact ⟨hf, hc.1, hc.2, cmd, hcmd, hj⟩
        · cases h
    · cases h

end Sys2Proof.Machine
end

