-- ==== Sys2Proof/Laws/Exec.lean ====
section
/-!
SUPPORT. Everything `exec` can do, said once: it answers the recorded fault, the table's refusal, or the operation's effect.
Every invariant and frame is derived from this.
-/
namespace Sys2Proof.Machine

/-- The effect of an admitted operation. -/
def effectOf (i : Instr) (s : State) : State :=
  match i with
  | .encPx v => s.returned (.bytes (encodePx s.cfg v))
  | .encNode vs => s.returned (.bytes (encodeNode s.cfg vs))
  | .devInit c => (s.sized c).returned .done
  | .devWriteRaw bytes => s.transmit bytes
  | .devEncWrite raw => s.encodeAndWrite raw
  | .construct =>
    match s.devOpen with
    | .openFailed => s.returned .constructionError
    | .opened => s.constructed.returned .done
  | .setNode idx vs =>
    if indexOut s.cfg idx then s.raised (.indexOutOfBounds idx) else (s.storeNode idx vs).returned .done
  | .write => s.encodeAndWrite s.ledBytes
  | .clear => s.zeroFill.encodeAndWrite s.zeroFill.ledBytes
  | .getNode idx =>
    if indexOut s.cfg idx then s.raised (.indexOutOfBounds idx) else s.returned (.bytes (s.loadNode idx))

/-- The conditions an operation checks, in its order. -/
def conditionsOf (i : Instr) (s : State) : List (Bool × Refusal) :=
  match i with
  | .encPx _ => []
  | .encNode vs => [(nodeLengthBad s.cfg vs, .badNodeLength)]
  | .devInit _ => s.deviceConditions
  | .devWriteRaw _ => s.deviceConditions ++ [s.notInitYet]
  | .devEncWrite raw => s.deviceConditions ++ [s.notInitYet, (rawLengthBad s.cap raw, .lengthMismatch)]
  | .construct => [(decide (s.phase = .owned), .alreadyConstructed)]
  | .setNode _ vs => [(nodeLengthBad s.cfg vs, .badNodeLength), s.noStripYet]
  | .write | .clear | .getNode _ => [s.noStripYet]

/-- Every operation is its effect behind its conditions. -/
theorem exec_eq_admit (i : Instr) (s : State) : exec i s = s.whenAdmitted (conditionsOf i s) (effectOf i s) := by
  cases i <;> rfl

/-- The conditions an operation checks are the table's. -/
theorem firstRefusal_conditionsOf (i : Instr) (s : State) : firstRefusal (conditionsOf i s) = tableRefusal s i := by
  cases hp : s.phase <;> cases ho : s.devOpen <;> cases hi : s.init <;> cases i <;>
    simp [conditionsOf, tableRefusal, State.deviceConditions, State.notInitYet, State.noStripYet, nodeLengthBad,
      rawLengthBad, hp, ho, hi]

/-- A next state is the effect of an admitted operation. -/
theorem exec_next_iff {i : Instr} {s t : State} :
    exec i s = .next t ↔ s.fault = none ∧ tableRefusal s i = none ∧ effectOf i s = t := by
  rw [exec_eq_admit, admit_next_iff, firstRefusal_conditionsOf]

/-- A refusal is the table's. -/
theorem exec_refused_iff {i : Instr} {s : State} {r : Refusal} :
    exec i s = .refused r ↔ s.fault = none ∧ tableRefusal s i = some r := by
  rw [exec_eq_admit, admit_refused_iff, firstRefusal_conditionsOf]

/-- A fault answered is the recorded one. -/
theorem exec_fault_iff {i : Instr} {s : State} {f : Fault} : exec i s = .fault f ↔ s.fault = some f := by
  rw [exec_eq_admit, admit_fault_iff]

/-! ### Where the table admits -/

theorem tableRefusal_strip {s : State} (h : s.phase = .owned) :
    tableRefusal s .write = none ∧ tableRefusal s .clear = none ∧ ∀ idx, tableRefusal s (.getNode idx) = none := by
  simp [tableRefusal, h]

theorem phase_of_strip {s : State} (h : tableRefusal s .write = none) : s.phase = .owned := by
  cases hp : s.phase <;> simp_all [tableRefusal]

end Sys2Proof.Machine
end

