-- ==== Sys2Proof/Laws/Framing.lean ====
section
/-!
SUPPORT. Small lemmas of the byte framing: the operand readers undo the operand writers.
-/
namespace Sys2Proof

theorem Op.ofCode?_code (o : Op) : Op.ofCode? o.code = some o := by cases o <;> rfl

theorem Op.code_of_ofCode? {b : Byte} {o : Op} (h : Op.ofCode? b = some o) : o.code = b := by
  simpa using List.find?_some h

theorem Op.mem_all (o : Op) : o ∈ Op.all := by cases o <;> decide

theorem Op.ofCode?_none {b : Byte} : Op.ofCode? b = none ↔ ∀ o : Op, o.code ≠ b := by
  simp [Op.ofCode?, List.find?_eq_none, Op.mem_all]

theorem be32Value_lt (a b c d : Byte) : be32Value a b c d < 2 ^ 32 := by
  have := a.isLt; have := b.isLt; have := c.isLt; have := d.isLt
  simp only [be32Value]; omega

/-- `BE32` carries every number below `2^32`. -/
theorem be32Value_be32 (x : Nat) (h : x < 2 ^ 32) : be32Value (BitVec.ofNat 8 (x / 2 ^ 24)) (BitVec.ofNat 8 (x / 2 ^ 16))
    (BitVec.ofNat 8 (x / 2 ^ 8)) (BitVec.ofNat 8 x) = x := by
  simp only [be32Value, BitVec.toNat_ofNat]; omega

/-- The four bytes of a `BE32` value are the ones it was read from. -/
theorem be32_be32Value (a b c d : Byte) : be32 (be32Value a b c d) = [a, b, c, d] := by
  have := a.isLt; have := b.isLt; have := c.isLt; have := d.isLt
  simp only [be32, be32Value, List.cons.injEq, and_true]
  refine ⟨?_, ?_, ?_, ?_⟩ <;> (apply BitVec.eq_of_toNat_eq; simp only [BitVec.toNat_ofNat]; omega)

@[simp] theorem be32_length (x : Nat) : (be32 x).length = 4 := rfl

theorem readBe32_be32 (x : Nat) (h : x < 2 ^ 32) (rest : List Byte) : readBe32 (be32 x ++ rest) = some (x, rest) := by
  simp only [be32, List.cons_append, List.nil_append, readBe32, be32Value_be32 x h]

theorem readBe32_some {bs rest : List Byte} {x : Nat} (h : readBe32 bs = some (x, rest)) :
    x < 2 ^ 32 ∧ bs = be32 x ++ rest := by
  unfold readBe32 at h
  split at h
  · cases h; exact ⟨be32Value_lt .., by rw [be32_be32Value]; rfl⟩
  · cases h

theorem readBytes_append (vs rest : List Byte) : readBytes vs.length (vs ++ rest) = some (vs, rest) := by
  simp [readBytes]

theorem readBytes_some {n : Nat} {bs vs rest : List Byte} (h : readBytes n bs = some (vs, rest)) :
    vs.length = n ∧ bs = vs ++ rest := by
  unfold readBytes at h
  split at h
  · cases h; simp; omega
  · cases h

theorem readCounted_append (vs rest : List Byte) (h : vs.length < 2 ^ 32) :
    readCounted (be32 vs.length ++ vs ++ rest) = some (vs, rest) := by
  simp only [readCounted, List.append_assoc, readBe32_be32 _ h, readBytes_append]

theorem readCounted_some {bs vs rest : List Byte} (h : readCounted bs = some (vs, rest)) :
    vs.length < 2 ^ 32 ∧ bs = be32 vs.length ++ vs ++ rest := by
  unfold readCounted at h
  split at h
  · rename_i len r hr
    obtain ⟨h1, rfl⟩ := readBe32_some hr
    obtain ⟨rfl, rfl⟩ := readBytes_some h
    exact ⟨h1, by simp⟩
  · cases h

theorem readIndexed_append (idx : Nat) (vs rest : List Byte) (h : idx < 2 ^ 32) :
    readIndexed vs.length (be32 idx ++ vs ++ rest) = some ((idx, vs), rest) := by
  simp only [readIndexed, List.append_assoc, readBe32_be32 _ h, readBytes_append, Option.map_some]

theorem readIndexed_some {m : Nat} {bs vs rest : List Byte} {idx : Nat} (h : readIndexed m bs = some ((idx, vs), rest)) :
    idx < 2 ^ 32 ∧ vs.length = m ∧ bs = be32 idx ++ vs ++ rest := by
  unfold readIndexed at h
  split at h
  · rename_i i r hr
    obtain ⟨h1, rfl⟩ := readBe32_some hr
    simp only [Option.map_eq_some_iff] at h
    obtain ⟨⟨us, rs⟩, h2, h3⟩ := h
    cases h3
    obtain ⟨rfl, rfl⟩ := readBytes_some h2
    exact ⟨h1, rfl, by simp⟩
  · cases h

/-- The operand readers undo the operand writers, and leave the bytes after them. -/
theorem readOperands_encode {cfg : Config} {i : Instr} (h : i.WellFormed cfg) (rest : List Byte) :
    readOperands cfg i.op (encodeOperands i ++ rest) = some (i, rest) := by
  cases i <;> simp only [Instr.WellFormed, Instr.wellFormed, decide_eq_true_eq] at h <;>
    simp only [Instr.op, readOperands, encodeOperands]
  case encPx v => rfl
  case encNode vs => rw [← h, readBytes_append]; rfl
  case devInit c => rw [readBe32_be32 c h]; rfl
  case devWriteRaw bytes => rw [readCounted_append _ _ h]; rfl
  case devEncWrite raw => rw [readCounted_append _ _ h]; rfl
  case construct => rfl
  case setNode idx vs => rw [← h.2, readIndexed_append _ _ _ h.1]; rfl
  case write => rfl
  case clear => rfl
  case getNode idx => rw [readBe32_be32 idx h]; rfl

/-- What the operand readers accept: the operand bytes of a well-formed instruction of that operation. -/
theorem readOperands_some {cfg : Config} {o : Op} {bs rest : List Byte} {i : Instr}
    (h : readOperands cfg o bs = some (i, rest)) :
    i.op = o ∧ i.WellFormed cfg ∧ bs = encodeOperands i ++ rest := by
  cases o <;> simp only [readOperands, Option.map_eq_some_iff, Option.some.injEq, Prod.mk.injEq] at h
  case encPx =>
    obtain ⟨⟨v, r⟩, h1, rfl, rfl⟩ := h
    cases bs with
    | nil => simp [readByte] at h1
    | cons b bs => simp only [readByte, Option.some.injEq, Prod.mk.injEq] at h1; obtain ⟨rfl, rfl⟩ := h1; exact ⟨rfl, rfl, rfl⟩
  case encNode =>
    obtain ⟨⟨vs, r⟩, h1, rfl, rfl⟩ := h
    obtain ⟨h2, rfl⟩ := readBytes_some h1
    exact ⟨rfl, by simpa [Instr.WellFormed, Instr.wellFormed] using h2, rfl⟩
  case devInit =>
    obtain ⟨⟨c, r⟩, h1, rfl, rfl⟩ := h
    obtain ⟨h2, rfl⟩ := readBe32_some h1
    exact ⟨rfl, by simpa [Instr.WellFormed, Instr.wellFormed] using h2, rfl⟩
  case devWriteRaw =>
    obtain ⟨⟨vs, r⟩, h1, rfl, rfl⟩ := h
    obtain ⟨h2, rfl⟩ := readCounted_some h1
    exact ⟨rfl, by simpa [Instr.WellFormed, Instr.wellFormed] using h2, rfl⟩
  case devEncWrite =>
    obtain ⟨⟨vs, r⟩, h1, rfl, rfl⟩ := h
    obtain ⟨h2, rfl⟩ := readCounted_some h1
    exact ⟨rfl, by simpa [Instr.WellFormed, Instr.wellFormed] using h2, rfl⟩
  case construct => obtain ⟨rfl, rfl⟩ := h; exact ⟨rfl, rfl, rfl⟩
  case setNode =>
    obtain ⟨⟨⟨idx, vs⟩, r⟩, h1, rfl, rfl⟩ := h
    obtain ⟨h2, h3, rfl⟩ := readIndexed_some h1
    exact ⟨rfl, by simpa [Instr.WellFormed, Instr.wellFormed] using ⟨h2, h3⟩, rfl⟩
  case write => obtain ⟨rfl, rfl⟩ := h; exact ⟨rfl, rfl, rfl⟩
  case clear => obtain ⟨rfl, rfl⟩ := h; exact ⟨rfl, rfl, rfl⟩
  case getNode =>
    obtain ⟨⟨c, r⟩, h1, rfl, rfl⟩ := h
    obtain ⟨h2, rfl⟩ := readBe32_some h1
    exact ⟨rfl, by simpa [Instr.WellFormed, Instr.wellFormed] using h2, rfl⟩

end Sys2Proof
end

