-- ==== Sys2Proof/Laws/PerInstr.lean ====
section
/-!
SUPPORT. Per-instruction statements about the instruction as syntax. Family `Framing`: a well-formed instruction's command is
its opcode byte followed by operand bytes that the operand readers of that opcode read back whole, none left over
(spec/30_encoding.md R58, R59, R60).
-/
namespace Sys2Proof.Laws.Framing

def Statement (i : Instr) : Prop :=
  ∀ cfg : Config, i.WellFormed cfg →
    (encode i).head? = some i.op.code ∧ readOperands cfg i.op ((encode i).tail) = some (i, [])

theorem of_wellFormed (i : Instr) : Statement i := by
  intro cfg h
  refine ⟨rfl, ?_⟩
  have := readOperands_encode h []
  rwa [List.append_nil] at this

theorem encPx (v : Byte) : Statement (.encPx v) := of_wellFormed _
theorem encNode (vs : List Byte) : Statement (.encNode vs) := of_wellFormed _
theorem devInit (c : Nat) : Statement (.devInit c) := of_wellFormed _
theorem devWriteRaw (bytes : List Byte) : Statement (.devWriteRaw bytes) := of_wellFormed _
theorem devEncWrite (raw : List Byte) : Statement (.devEncWrite raw) := of_wellFormed _
theorem construct : Statement .construct := of_wellFormed _
theorem setNode (idx : Nat) (vs : List Byte) : Statement (.setNode idx vs) := of_wellFormed _
theorem write : Statement .write := of_wellFormed _
theorem clear : Statement .clear := of_wellFormed _
theorem getNode (idx : Nat) : Statement (.getNode idx) := of_wellFormed _

end Sys2Proof.Laws.Framing
end

