-- ==== Sys2Proof/Tests/Slice0.lean ====
section
/-!
SUPPORT. Tests. Expected results come from spec/95_test_vectors.md (the vector is named) or from the rule named, never from the
model. After them, for each obligation with hypotheses, a concrete state and operands that meet them all.
-/
namespace Sys2Proof.Tests
open Sys2Proof Sys2Proof.Machine

/-! ## Helpers -/

/-- The next state of an outcome. -/
def after : Host.Outcome State Fault Refusal → Option State
  | .next s => some s
  | .fault _ | .refused _ => none

/-- The refusal of an outcome. -/
def refusal : Host.Outcome State Fault Refusal → Option Refusal
  | .refused r => some r
  | .next _ | .fault _ => none

/-- `M = 1`, `NODES = 1`, `PAD = [00, 00, 00]`: the configuration of program P5. -/
def padded : Config := { Config.reference with m := 1, nodes := 1, pad := [0, 0, 0] }

/-- A bare device initialised for `c` channel bytes, its payload any bytes, here `AA`. -/
def bareWith (cfg : Config) (c : Nat) (answers : List PortOutcome) : State :=
  { State.resetWith cfg .opened with
    init := true, cap := c, txbuf := cfg.pad ++ List.replicate (16 * c) 0xAA, answers := answers }

/-- A constructed strip, the payload of its buffer any bytes, here `AA`. -/
def stripWith (cfg : Config) (mem : Memory) (answers : List PortOutcome) : State :=
  { bareWith cfg cfg.ledLen answers with phase := .owned, ledbuf := mem }

/-- The state after V62: node 0 of nine channel bytes holds `[1, 2, 3]`. -/
def afterV62 (answers : List PortOutcome) : State := stripWith Config.reference [(0, 1), (1, 2), (2, 3)] answers

/-- The waveform of letters `O` (true) and `Z` (false) under the reference patterns (spec/95_test_vectors.md 0). -/
def letters (ls : List Bool) : List Byte := ls.flatMap fun o => if o then [0xFF, 0xE0] else [0xF8, 0x00]

/-! ## WellFormed: each check refuses an ill-formed term (spec/30_encoding.md R59) -/

theorem test_wf_accepts : (Instr.setNode 1 [0, 50, 30]).wellFormed Config.reference = true := by decide
theorem test_wf_node_too_short : (Instr.encNode [0, 50]).wellFormed Config.reference = false := by decide
theorem test_wf_count_too_wide : (Instr.devInit (2 ^ 32)).wellFormed Config.reference = false := by decide
theorem test_wf_raw_too_long (bs : List Byte) (h : bs.length = 2 ^ 32) :
    (Instr.devWriteRaw bs).wellFormed Config.reference = false := by
  simp [Instr.wellFormed, Carried, h]
theorem test_wf_encode_too_long (bs : List Byte) (h : bs.length = 2 ^ 32) :
    (Instr.devEncWrite bs).wellFormed Config.reference = false := by
  simp [Instr.wellFormed, Carried, h]
theorem test_wf_set_index_too_wide : (Instr.setNode (2 ^ 32) [0, 50, 30]).wellFormed Config.reference = false := by decide
theorem test_wf_set_node_too_long : (Instr.setNode 1 [0, 50, 30, 7]).wellFormed Config.reference = false := by decide
theorem test_wf_get_index_too_wide : (Instr.getNode (2 ^ 32)).wellFormed Config.reference = false := by decide

/-! ## Decoding: words written out bit by bit from spec/30_encoding.md R58 to R60 -/

theorem test_decode_encPx : decode Config.reference [0b00010000, 0b10110000] = .ok (.encPx 0xB0) := by rfl
theorem test_decode_encNode :
    decode Config.reference [0b00100000, 0b00000000, 0b00110010, 0b00011110] = .ok (.encNode [0, 50, 30]) := by rfl
theorem test_decode_devInit :
    decode Config.reference [0b00110000, 0b10000000, 0b00000001, 0b00000010, 0b00000011] = .ok (.devInit 2147549699) := by rfl
theorem test_decode_devWriteRaw :
    decode Config.reference [0b00110001, 0, 0, 0, 0b00000010, 0xF8, 0x00] = .ok (.devWriteRaw [0xF8, 0x00]) := by rfl
theorem test_decode_devEncWrite :
    decode Config.reference [0b00110010, 0, 0, 0, 0b00000001, 0xFF] = .ok (.devEncWrite [0xFF]) := by rfl
theorem test_decode_construct : decode Config.reference [0b01000000] = .ok .construct := by rfl
theorem test_decode_setNode :
    decode Config.reference [0b01000001, 0xFF, 0xFF, 0xFF, 0xFF, 7, 8, 9] = .ok (.setNode 4294967295 [7, 8, 9]) := by rfl
theorem test_decode_write : decode Config.reference [0b01000010] = .ok .write := by rfl
theorem test_decode_clear : decode Config.reference [0b01000011] = .ok .clear := by rfl
theorem test_decode_getNode : decode Config.reference [0b01000100, 0, 0, 0, 0b00000001] = .ok (.getNode 1) := by rfl
/-- V51, V52. -/
theorem test_decode_invalid :
    decode Config.reference [0x00] = .error (.unknownOpcode 0x00) ∧ decode Config.reference [0x33] = .error (.unknownOpcode 0x33) ∧
    decode Config.reference [0x45] = .error (.unknownOpcode 0x45) ∧
    decode Config.reference [0x41, 0x00, 0x00] = .error (.tooShort 0x41) ∧
    decode Config.reference [0x42, 0x00] = .error (.tooLong 0x42) ∧ decode Config.reference [] = .error .emptyCommand := by
  refine ⟨?_, ?_, ?_, ?_, ?_, ?_⟩ <;> rfl
/-- The opcode table's rows as the host's probe words: operand bits that the table does not give are zero. -/
theorem test_decodeTableWord :
    decodeTableWord 16 0xB010 = some (.encPx 0xB0) ∧ decodeTableWord 8 0x20 = some (.encNode [0, 0, 0]) ∧
    decodeTableWord 40 0x0200000030 = some (.devInit 2) ∧ decodeTableWord 8 0x31 = some (.devWriteRaw []) ∧
    decodeTableWord 8 0x41 = some (.setNode 0 [0, 0, 0]) ∧ decodeTableWord 8 0x45 = none := by
  decide

/-! ## The written form and the framing of results -/

/-- The example of spec/30_encoding.md R63. -/
theorem test_text : (Instr.setNode 1 [0, 50, 30]).text = "SET_NODE 1, [0, 50, 30]" := by decide
/-- V69, V66, V61: result bytes. -/
theorem test_resultBytes : resultBytes (.transmissionError 144) = some [0x01, 0x00, 0x00, 0x00, 0x90] ∧
    resultBytes (.bytes [0, 50, 30]) = some [0x00, 0x00, 0x32, 0x1E] ∧ resultBytes .constructionError = some [0x02] := by
  decide
/-- spec/70_reset_and_hazards.md R165: the example of 73.728 µs. -/
theorem test_frameNs : frameNs Config.reference = 73728 := by decide
/-- spec/92_eei_decisions.md D27: the reference patterns have high pulses of 11 and 5 bits. -/
theorem test_reference_pulses : pulseOf Config.reference.one 11 = true ∧ pulseOf Config.reference.zero 5 = true ∧
    pulsesSuit Config.reference = true := by decide

/-! ## Instructions, one step each -/

/-- V5. -/
theorem test_encPx_b0 : (after (exec (.encPx 0xB0) State.reset)).map (·.results) = some [.bytes
    [0xFF, 0xE0, 0xF8, 0x00, 0xFF, 0xE0, 0xFF, 0xE0, 0xF8, 0x00, 0xF8, 0x00, 0xF8, 0x00, 0xF8, 0x00]] := by decide
/-- V8: not palindromic, so a reversed bit order shows. -/
theorem test_encPx_0f : (after (exec (.encPx 0x0F) State.reset)).map (·.results) = some [.bytes
    [0xF8, 0x00, 0xF8, 0x00, 0xF8, 0x00, 0xF8, 0x00, 0xFF, 0xE0, 0xFF, 0xE0, 0xFF, 0xE0, 0xFF, 0xE0]] := by decide
/-- V23: `ZZZZZZZZ ZZOOZZOZ ZZZOOOOZ`. -/
theorem test_encNode : (after (exec (.encNode [0, 50, 30]) State.reset)).map (·.results) = some [.bytes (letters
    [false, false, false, false, false, false, false, false, false, false, true, true, false, false, true, false,
     false, false, false, true, true, true, true, false])] := by decide
/-- spec/60_exceptions.md R132 row 2. -/
theorem test_encNode_bad_length : refusal (exec (.encNode [0, 50]) State.reset) = some .badNodeLength := by decide
/-- V30. -/
theorem test_devInit : (after (exec (.devInit 2) State.reset)).map (fun s => (s.init, s.cap, s.txbuf.length, s.wire)) =
    some (true, 2, 32, []) := by decide
/-- V50. -/
theorem test_devInit_no_device :
    refusal (exec (.devInit 2) (State.resetWith Config.reference .openFailed)) = some .noDevice := by decide
/-- V41 with the port answering `Failed(2)`: the count in the error is the attempted length, 3 (R94). -/
theorem test_devWriteRaw_fails :
    (after (exec (.devWriteRaw [0x12, 0x34, 0x56]) (bareWith Config.reference 2 [.failed 2]))).map
      (fun s => (s.results, s.wire)) =
    some ([.transmissionError 3], [⟨[0x12, 0x34, 0x56], .failed 2⟩]) := by decide
/-- V46. -/
theorem test_devWriteRaw_before_init : refusal (exec (.devWriteRaw [0xF8, 0x00]) State.reset) = some .notInitialised := by
  decide
/-- V36 for one channel byte: the padding stands before the encoding and is part of the error's count, 3 + 16. -/
theorem test_devEncWrite_padded :
    (after (exec (.devEncWrite [0x80]) (bareWith padded 1 [.failed 7]))).map (fun s => (s.results, s.txbuf)) =
    some ([.transmissionError 19],
      [0, 0, 0, 0xFF, 0xE0, 0xF8, 0, 0xF8, 0, 0xF8, 0, 0xF8, 0, 0xF8, 0, 0xF8, 0, 0xF8, 0]) := by decide
/-- V47. -/
theorem test_devEncWrite_short :
    refusal (exec (.devEncWrite [0xB0]) (bareWith Config.reference 2 [])) = some .lengthMismatch := by decide
/-- V60. -/
theorem test_construct :
    (after (exec .construct State.reset)).map (fun s => (s.phase, s.cap, s.txbuf.length, s.ledBytes)) =
    some (.owned, 9, 144, [0, 0, 0, 0, 0, 0, 0, 0, 0]) := by decide +kernel
/-- V61. -/
theorem test_construct_fails :
    (after (exec .construct (State.resetWith Config.reference .openFailed))).map (fun s => (s.results, s.phase)) =
    some ([.constructionError], .bare) := by decide
/-- E6. -/
theorem test_setNode : (after (exec (.setNode 1 [0, 50, 30]) (stripWith Config.reference [] []))).map State.ledBytes =
    some [0, 0, 0, 0, 50, 30, 0, 0, 0] := by decide
/-- V64: the fault is taken, the buffer and the index are unchanged, no result is returned. -/
theorem test_setNode_out_of_range :
    (after (exec (.setNode 3 [7, 8, 9]) (stripWith Config.reference [] []))).map (fun s => (s.fault, s.ledBytes, s.pc, s.results)) =
    some (some (.indexOutOfBounds 3), [0, 0, 0, 0, 0, 0, 0, 0, 0], 0, []) := by decide
/-- V66's last operation. -/
theorem test_getNode :
    (after (exec (.getNode 1) (stripWith Config.reference [(4, 50), (5, 30)] []))).map (fun s => (s.results, s.pc)) =
    some ([.bytes [0, 50, 30]], 1) := by decide
/-- V80. -/
theorem test_getNode_bare : refusal (exec (.getNode 0) State.reset) = some .noStrip := by decide
/-- V69: the first node's letters are `ZZZZZZZO ZZZZZZOZ ZZZZZZOO`, the rest `Z`. -/
theorem test_write_fails : (after (exec .write (afterV62 [.failed 100]))).map (fun s => (s.results, s.wire, s.answers)) =
    some ([.transmissionError 144], [⟨letters ([false, false, false, false, false, false, false, true, false, false, false, false,
      false, false, true, false, false, false, false, false, false, false, true, true] ++ List.replicate 48 false),
      .failed 100⟩], []) := by decide +kernel
/-- V68 with spec/10_state.md R27: the strip shows the buffer. -/
theorem test_write_shows : (after (exec .write (afterV62 [.complete]))).map (fun s => (s.results, phys s.cfg s.wire)) =
    some ([.done], .shown [1, 2, 3, 0, 0, 0, 0, 0, 0]) := by decide +kernel
/-- V72: the zero-fill is kept where the transfer fails. -/
theorem test_clear_fails : (after (exec .clear (afterV62 [.failed 0]))).map (fun s => (s.results, s.ledBytes)) =
    some ([.transmissionError 144], [0, 0, 0, 0, 0, 0, 0, 0, 0]) := by decide +kernel
/-- V71. -/
theorem test_clear_sends_zeros : (after (exec .clear (afterV62 [.complete]))).map (fun s => s.wire) =
    some [⟨letters (List.replicate 72 false), .complete⟩] := by decide +kernel

/-! ## Steps -/

/-- V83: a faulted block performs nothing. -/
theorem test_step_faulted :
    step { stripWith Config.reference [] [] with fault := some (.indexOutOfBounds 3), program := [[0x42]] } =
      .fault (.indexOutOfBounds 3) := by rfl
/-- P5, index 1: `41 00 00 00 00 80`. -/
theorem test_step_runs :
    (after (step { stripWith padded [] [] with program := [[0x40], [0x41, 0, 0, 0, 0, 0x80]], pc := 1 })).map
      (fun s => (s.ledBytes, s.pc)) = some ([0x80], 2) := by decide
/-- The host's probe: a placed word is the next step's operation. -/
theorem test_withFetchWord : (after (step (State.reset.withFetchWord 16 0x0110))).map (·.results) = some [.bytes
    [0xF8, 0x00, 0xF8, 0x00, 0xF8, 0x00, 0xF8, 0x00, 0xF8, 0x00, 0xF8, 0x00, 0xF8, 0x00, 0xFF, 0xE0]] := by decide

/-! ## Witnesses: the hypotheses of each obligation, met together -/

theorem witness_DecodeEncodeAgree : (Instr.setNode 4294967295 [7, 8, 9]).WellFormed Config.reference := by decide
theorem witness_DecodeAcceptsOnlyEncodings :
    decode Config.reference [0x44, 0xFF, 0xFF, 0xFF, 0xFF] = .ok (.getNode 4294967295) := by rfl
theorem witness_CommandLengths : (Instr.devWriteRaw [0x12, 0x34]).WellFormed Config.reference := by decide

/-- The three clauses: an empty command, an opcode byte next to a valid one, a command one byte short. -/
theorem witness_InvalidEncodingsRefused :
    State.reset.fault = none ∧ State.reset.cfg.WellShaped ∧ State.reset.cfg.Framable ∧
    (∀ cmd, ({ State.reset with program := [cmd] } : State).program[State.reset.pc]? = some cmd) ∧
    (0x45 : Byte) ∉ ([0x10, 0x20, 0x30, 0x31, 0x32, 0x40, 0x41, 0x42, 0x43, 0x44] : List Byte) ∧
    (Instr.setNode 1 [0, 50, 30]).WellFormed State.reset.cfg ∧ 7 < (encode (.setNode 1 [0, 50, 30])).length := by
  refine ⟨rfl, by decide, by decide, fun _ => rfl, by decide, by decide, by decide⟩

theorem witness_ResultFraming : (4294967295 : Nat) < 2 ^ 32 := by decide
/-- A set bit and a clear bit at the first and the last position. -/
theorem witness_PixelUnitIsOneIffBitSet : Config.reference.one ≠ Config.reference.zero ∧ (0 : Nat) < 8 ∧ (7 : Nat) < 8 ∧
    (0x80 : Byte).getLsbD (7 - 0) = true ∧ (0x80 : Byte).getLsbD (7 - 7) = false := by decide
theorem witness_EncodingInjective : Config.reference.one ≠ Config.reference.zero ∧
    ([1, 2] : List Byte).length = ([3, 4] : List Byte).length := by decide
theorem witness_NodeEncodingLayout : ([0, 50, 30] : List Byte).length = Config.reference.m ∧
    ([0, 50, 30] : List Byte)[2]? = some 30 := by decide
theorem witness_FrameLayout : ([0xB0, 0x01] : List Byte)[1]? = some 0x01 ∧ (7 : Nat) < 8 := by decide
theorem witness_PayloadDecodeEncodeAgree : Config.reference.one ≠ Config.reference.zero ∧
    decodePayload Config.reference (letters [true, false, true, true, false, false, false, false]) = some [0xB0] := by decide
theorem witness_ValidPayloadIffUnits :
    (letters [true, false, true, true, false, false, false, false]).length = 16 * 1 := by decide

theorem witness_EncPxReturnsWaveform : State.reset.fault = none := by decide
theorem witness_EncNodeReturnsWaveform : State.reset.fault = none ∧ ([0, 50, 30] : List Byte).length = State.reset.cfg.m ∧
    ([0, 50] : List Byte).length ≠ State.reset.cfg.m := by decide
theorem witness_DevInitSizesBuffer : State.reset.DeviceReady := by decide
theorem witness_DevInitIdempotent : (bareWith padded 1 []).DeviceReady := by decide
theorem witness_DevWriteRawTransmits : (bareWith padded 1 []).TransmitReady := by decide
/-- `K = 0` and `K = L`. -/
theorem witness_ErrorCarriesLengthNotCount :
    ((bareWith padded 1 [.failed 0]).TransmitReady ∧ 0 ≤ ([0x12, 0x34] : List Byte).length ∧
      (bareWith padded 1 [.failed 0]).answers = .failed 0 :: []) ∧
    (bareWith padded 1 [.failed 2]).TransmitReady ∧ 2 ≤ ([0x12, 0x34] : List Byte).length ∧
      (bareWith padded 1 [.failed 2]).answers = .failed 2 :: [] := by decide
theorem witness_DevEncWriteTransmits : (bareWith padded 1 []).TransmitReady ∧ (bareWith padded 1 []).BufferOk ∧
    ([0x80] : List Byte).length = (bareWith padded 1 []).cap := by decide
/-- `CAP = 0`: the frame is the padding alone. -/
theorem witness_RawPathEqualsEncodePath : (bareWith padded 0 []).TransmitReady ∧ (bareWith padded 0 []).BufferOk ∧
    ([] : List Byte).length = (bareWith padded 0 []).cap := by decide
theorem witness_PreEncodedNodesSameWire : (bareWith padded 2 []).TransmitReady ∧ (bareWith padded 2 []).BufferOk ∧
    ([[0x80], [0x01]] : List (List Byte)).flatten.length = (bareWith padded 2 []).cap := by decide

/-! A strip of three nodes of three channels, ready for its operations. -/

theorem strip_ready : (stripWith Config.reference [] []).StripReady ∧ (stripWith Config.reference [] []).BufferOk ∧
    (stripWith Config.reference [] []).StripOk ∧ (stripWith Config.reference [] []).LedOk := by decide +kernel
theorem afterV62_good : (afterV62 [.complete]).Inv ∧ (afterV62 [.failed 144]).Inv ∧ (afterV62 [.complete]).StripReady ∧
    (afterV62 [.failed 144]).StripReady := by decide +kernel

theorem witness_ConstructBuildsStrip : State.reset.DeviceReady ∧ State.reset.LedOk := by decide
theorem witness_ConstructReportsOpenFailure :
    (State.resetWith Config.reference .openFailed).fault = none ∧
    (State.resetWith Config.reference .openFailed).phase = .bare ∧
    (State.resetWith Config.reference .openFailed).devOpen = .openFailed := by decide
/-- A device that opened: the second clause. -/
theorem witness_ConstructReportsOpenFailure_opened :
    State.reset.fault = none ∧ State.reset.phase = .bare ∧ State.reset.devOpen ≠ .openFailed := by decide
/-- The last node; an address just below it and one just above it. -/
theorem witness_SetNodeStores : (stripWith Config.reference [] []).StripReady ∧
    ([7, 8, 9] : List Byte).length = (stripWith Config.reference [] []).cfg.m ∧
    2 < (stripWith Config.reference [] []).cfg.nodes ∧ ([7, 8, 9] : List Byte)[2]? = some 9 ∧
    5 < 2 * (stripWith Config.reference [] []).cfg.m ∧
    2 * (stripWith Config.reference [] []).cfg.m + (stripWith Config.reference [] []).cfg.m ≤ 9 :=
  ⟨strip_ready.1, rfl, by decide, rfl, by decide, by decide⟩
theorem witness_GetNodeReads : (stripWith Config.reference [] []).StripReady ∧
    2 < (stripWith Config.reference [] []).cfg.nodes ∧ 2 < (stripWith Config.reference [] []).cfg.m :=
  ⟨strip_ready.1, by decide, by decide⟩
/-- The first index out of range, and the last in range. -/
theorem witness_IndexFaultEntry : (stripWith Config.reference [] []).StripReady ∧
    ([7, 8, 9] : List Byte).length = (stripWith Config.reference [] []).cfg.m ∧
    (stripWith Config.reference [] []).cfg.nodes ≤ 3 ∧ 2 < (stripWith Config.reference [] []).cfg.nodes :=
  ⟨strip_ready.1, rfl, by decide, by decide⟩
theorem witness_WriteSendsFrame : (stripWith Config.reference [] []).StripReady ∧
    (stripWith Config.reference [] []).BufferOk ∧ (stripWith Config.reference [] []).StripOk :=
  ⟨strip_ready.1, strip_ready.2.1, strip_ready.2.2.1⟩
theorem witness_ClearSendsBlankFrame : (stripWith Config.reference [] []).StripReady ∧
    (stripWith Config.reference [] []).BufferOk ∧ (stripWith Config.reference [] []).StripOk ∧
    (stripWith Config.reference [] []).LedOk := strip_ready
theorem witness_ReadAfterWrite : (stripWith Config.reference [] []).StripReady ∧
    ([7, 8, 9] : List Byte).length = (stripWith Config.reference [] []).cfg.m ∧
    2 < (stripWith Config.reference [] []).cfg.nodes ∧
    (∃ t, exec (.setNode 2 [7, 8, 9]) (stripWith Config.reference [] []) = .next t) ∧
    1 < (stripWith Config.reference [] []).cfg.nodes ∧ 1 ≠ 2 :=
  ⟨strip_ready.1, rfl, by decide, ⟨_, rfl⟩, by decide, by decide⟩
/-- The second clause: a `WRITE` that fails, and node 2. -/
theorem witness_ReadAfterWrite_others : (afterV62 [.failed 144]).StripReady ∧
    Instr.write.op ∉ [Op.construct, .setNode, .clear] ∧
    (∃ t, exec .write (afterV62 [.failed 144]) = .next t ∧ t.fault = none) ∧ 2 < (afterV62 [.failed 144]).cfg.nodes :=
  ⟨afterV62_good.2.2.2, by decide, ⟨_, rfl, rfl⟩, by decide⟩
theorem witness_ClearedNodesReadZero : (afterV62 [.failed 144]).StripReady ∧ 2 < (afterV62 [.failed 144]).cfg.nodes ∧
    ∃ t, exec .clear (afterV62 [.failed 144]) = .next t := ⟨afterV62_good.2.2.2, by decide, _, rfl⟩
theorem witness_ClearIsItsExpansion : (afterV62 [.failed 144]).StripReady := afterV62_good.2.2.2
theorem witness_FrameDependsOnBufferAlone : (afterV62 [.complete]).Inv ∧ (afterV62 [.failed 144]).Inv ∧
    (afterV62 [.complete]).StripReady ∧ (afterV62 [.failed 144]).StripReady ∧
    (afterV62 [.complete]).cfg = (afterV62 [.failed 144]).cfg ∧
    (∀ a, a < (afterV62 [.complete]).cfg.ledLen →
      memGet (afterV62 [.complete]).ledbuf a = memGet (afterV62 [.failed 144]).ledbuf a) ∧
    (∃ t, exec .write (afterV62 [.complete]) = .next t) ∧ ∃ t, exec .write (afterV62 [.failed 144]) = .next t :=
  ⟨afterV62_good.1, afterV62_good.2.1, afterV62_good.2.2.1, afterV62_good.2.2.2, rfl, fun _ _ => rfl, ⟨_, rfl⟩, _, rfl⟩
theorem witness_SetNodeIdempotent : (stripWith Config.reference [] []).LedOk ∧
    2 < (stripWith Config.reference [] []).cfg.nodes ∧
    ∃ t u, exec (.setNode 2 [7, 8, 9]) (stripWith Config.reference [] []) = .next t ∧
      exec (.setNode 2 [7, 8, 9]) t = .next u := ⟨strip_ready.2.2.2, by decide, _, _, rfl, rfl⟩
theorem witness_NodeRangesFit : 1 < Config.reference.nodes ∧ 2 < Config.reference.nodes ∧ 1 < 2 := by decide

/-- One operation for each clause: a clause of the table leaves the component alone for the operations it does not name. -/
theorem witness_OperationFrames : (∃ t, exec (.devInit 2) State.reset = .next t) ∧
    (∃ t, exec (.devWriteRaw [0x12]) (bareWith padded 1 [.complete]) = .next t) ∧
    (∃ t, exec .construct State.reset = .next t) ∧ ∃ t, exec (.getNode 3) (stripWith Config.reference [] []) = .next t :=
  ⟨⟨_, rfl⟩, ⟨_, rfl⟩, ⟨_, rfl⟩, _, rfl⟩
/-- A node in the middle, the byte just below and the byte just above it; the first byte above the buffer. -/
theorem witness_StoredBytesOnly : (∃ t, exec (.setNode 1 [7, 8, 9]) (stripWith Config.reference [] []) = .next t) ∧
    2 < nodeBase (stripWith Config.reference [] []).cfg 1 ∧
    nodeBase (stripWith Config.reference [] []).cfg 1 + ([7, 8, 9] : List Byte).length ≤ 6 ∧
    (∃ t, exec .clear (stripWith Config.reference [] []) = .next t) ∧
    (stripWith Config.reference [] []).cfg.ledLen ≤ 9 ∧ ∃ t, exec (.encPx 1) State.reset = .next t :=
  ⟨⟨_, rfl⟩, by decide, by decide, ⟨_, rfl⟩, by decide, _, rfl⟩
theorem witness_OnePortOperationPerTransmit :
    (transmits .write = true ∧ ∃ t, exec .write (afterV62 [.failed 144]) = .next t) ∧
    transmits .construct = false ∧ ∃ t, exec .construct State.reset = .next t := ⟨⟨rfl, _, rfl⟩, rfl, _, rfl⟩
/-- A result, and a fault at the first index out of range. -/
theorem witness_OneResultPerOperation : (∃ t, exec (.getNode 2) (stripWith Config.reference [] []) = .next t) ∧
    ∃ t, exec (.getNode 3) (stripWith Config.reference [] []) = .next t := ⟨⟨_, rfl⟩, _, rfl⟩
theorem witness_ResultKinds : (afterV62 [.complete]).Inv ∧
    ∃ t, exec .write (afterV62 [.complete]) = .next t ∧ t.results = (afterV62 [.complete]).results ++ [.done] :=
  ⟨afterV62_good.1, _, rfl, rfl⟩
/-- Each of the seven reasons of rows 2 to 8. -/
theorem witness_RefusalsFollowTable : State.reset.fault = none ∧ (afterV62 []).fault = none ∧
    tableRefusal State.reset (.encNode [1]) = some .badNodeLength ∧
    tableRefusal State.reset .write = some .noStrip ∧
    tableRefusal (afterV62 []) (.devInit 9) = some .notOwner ∧
    tableRefusal (afterV62 []) .construct = some .alreadyConstructed ∧
    tableRefusal (State.resetWith Config.reference .openFailed) (.devInit 2) = some .noDevice ∧
    tableRefusal State.reset (.devWriteRaw []) = some .notInitialised ∧
    tableRefusal (bareWith padded 1 []) (.devEncWrite []) = some .lengthMismatch := by decide +kernel
theorem witness_AdmittedOperationsComplete : State.reset.fault = none ∧ tableRefusal State.reset .construct = none ∧
    tableRefusal State.reset (.devInit 0) = none ∧ (afterV62 []).fault = none ∧
    tableRefusal (afterV62 []) (.setNode 3 [7, 8, 9]) = none := by decide
theorem witness_TransmitKeepsAdmission : transmits .write = true ∧
    ∃ t, exec .write (afterV62 [.failed 144]) = .next t := ⟨rfl, _, rfl⟩

theorem witness_StepRunsDecodedInstruction :
    ({ State.reset with program := [[0x40]] } : State).fault = none ∧ State.reset.cfg.WellShaped ∧ State.reset.cfg.Framable ∧
    ({ State.reset with program := [[0x40]] } : State).program[State.reset.pc]? = some [0x40] ∧
    decode State.reset.cfg [0x40] = .ok .construct := ⟨rfl, by decide, by decide, rfl, rfl⟩
theorem witness_FaultedBlockPerformsNothing :
    ({ afterV62 [] with fault := some (.indexOutOfBounds 3) } : State).fault = some (.indexOutOfBounds 3) := rfl
theorem witness_IdleAtEndOfList : State.reset.Final ∧ State.reset.cfg.WellShaped ∧ State.reset.cfg.Framable := by decide
/-- The four clauses, the last at its boundary. -/
theorem witness_BadConfigurationRefused : State.reset.fault = none ∧
    ({ Config.reference with zero := Config.reference.one } : Config).one =
      ({ Config.reference with zero := Config.reference.one } : Config).zero ∧
    ({ Config.reference with m := 0 } : Config).m = 0 ∧ ({ Config.reference with nodes := 0 } : Config).nodes = 0 ∧
    2 ^ 32 ≤ ({ Config.reference with m := 1, nodes := 2 ^ 28 } : Config).padLen + 16 * (2 ^ 28 * 1) := by decide
theorem witness_ResetValues : ([0, 50, 30] : List Byte).length = Config.reference.m := by decide
theorem witness_ResetMeetsInvariant : State.reset.IsReset := by decide
theorem witness_StepKeepsInvariant : ({ afterV62 [.complete] with program := [[0x42]] } : State).Inv ∧
    ∃ t, step { afterV62 [.complete] with program := [[0x42]] } = .next t := ⟨by decide +kernel, _, rfl⟩
theorem witness_WireOnlyGrows : ∃ t, step { afterV62 [.complete] with program := [[0x42]] } = .next t := ⟨_, rfl⟩
theorem witness_ConfigurationNeverWritten : ∃ t, step { State.reset with program := [[0x40]] } = .next t := ⟨_, rfl⟩
/-- A step that constructs, and a step in phase `Owned`. -/
theorem witness_PhaseChangesOnlyByConstruct :
    (∃ t, step { State.reset with program := [[0x40]] } = .next t ∧ State.reset.phase = .bare ∧ t.phase = .owned) ∧
    ∃ t, step { afterV62 [] with program := [[0x42]] } = .next t ∧ (afterV62 []).phase = .owned :=
  ⟨⟨_, rfl, rfl, rfl⟩, _, rfl, rfl⟩
/-- Each outcome: shown after a completed frame, undefined after a failure. -/
theorem witness_DisplayDecidedByLastRecord : Config.reference.one ≠ Config.reference.zero ∧
    phys { Config.reference with m := 1, nodes := 1 }
      [⟨[], .failed 0⟩, ⟨letters [true, false, true, true, false, false, false, false], .complete⟩] = .shown [0xB0] ∧
    phys Config.reference [⟨[], .failed 0⟩] = .undefined ∧ phys Config.reference [] = .unknown := by decide
theorem witness_WriteUpdatesDisplay : ((afterV62 [.complete]).Inv ∧ (afterV62 [.complete]).StripReady ∧
      (afterV62 [.complete]).cfg.one ≠ (afterV62 [.complete]).cfg.zero ∧ (afterV62 [.complete]).answers = .complete :: [] ∧
      2 < (afterV62 [.complete]).cfg.nodes) ∧
    (afterV62 [.failed 144]).Inv ∧ (afterV62 [.failed 144]).StripReady ∧
      (afterV62 [.failed 144]).cfg.one ≠ (afterV62 [.failed 144]).cfg.zero ∧
      (afterV62 [.failed 144]).answers = .failed 144 :: [] :=
  ⟨⟨afterV62_good.1, afterV62_good.2.2.1, by decide, rfl, by decide⟩, afterV62_good.2.1, afterV62_good.2.2.2, by decide, rfl⟩
theorem witness_ReferenceTimes : Config.reference.spiBitNs = 64 := by decide

end Sys2Proof.Tests
end

section
/-!
PROOFS of spec/20_memory.md: what an operation appends to `WIRE`.
-/
namespace Sys2Proof.Machine

/-- A transmit is one `PortWrite` of the bytes it is given (spec/42_device_contract.md R98). -/
theorem transmit_appends_record (s : State) (bytes : List Byte) :
    ∃ o, Possible bytes.length o ∧ (s.transmit bytes).wire = s.wire ++ [⟨bytes, o⟩] :=
  ⟨s.portOutcome bytes.length, portOutcome_cases s _, s.transmit_wire bytes⟩

@[simp] theorem State.encodeAndWrite_txbuf (s : State) (raw : List Byte) :
    (s.encodeAndWrite raw).txbuf = (s.encoded raw).txbuf :=
  (s.encoded raw).transmit_txbuf _

/-- Encode and write is one `PortWrite` of the whole transmission buffer, as the operation leaves it
(spec/42_device_contract.md R95). -/
theorem encodeAndWrite_appends_record (s : State) (raw : List Byte) :
    ∃ o, Possible (s.encodeAndWrite raw).txbuf.length o ∧
      (s.encodeAndWrite raw).wire = s.wire ++ [⟨(s.encodeAndWrite raw).txbuf, o⟩] := by
  rw [State.encodeAndWrite_txbuf]
  exact transmit_appends_record (s.encoded raw) (s.encoded raw).txbuf

/-- An operation that is no transmit operation appends no record (spec/10_state.md R26). -/
theorem effectOf_wire_of_not_transmits {i : Instr} (h : transmits i = false) (s : State) :
    (effectOf i s).wire = s.wire := by
  cases i with
  | encPx _ | encNode _ | devInit _ => rfl
  | construct => cases ho : s.devOpen <;> simp [effectOf, ho, State.constructed]
  | setNode idx _ | getNode idx => cases hout : indexOut s.cfg idx <;> simp [effectOf, hout]
  | devWriteRaw _ | devEncWrite _ | write | clear => cases h

/-- Settles O39: a next state is the operation's effect, and each transmit operation's effect is one transmit, of the raw
operand or of the buffer the encode step leaves. -/
theorem onePortOperationPerTransmit : Obligations.OnePortOperationPerTransmit := by
  unfold Obligations.OnePortOperationPerTransmit
  intro i s t h
  obtain ⟨-, -, rfl⟩ := exec_next_iff.1 h
  refine ⟨fun htr => ?_, fun hno => effectOf_wire_of_not_transmits hno s⟩
  cases i with
  | devWriteRaw bytes =>
    obtain ⟨o, ho, hw⟩ := transmit_appends_record s bytes
    exact ⟨bytes, o, ho, hw, rfl⟩
  | devEncWrite raw =>
    obtain ⟨o, ho, hw⟩ := encodeAndWrite_appends_record s raw
    exact ⟨_, o, ho, hw, rfl⟩
  | write =>
    obtain ⟨o, ho, hw⟩ := encodeAndWrite_appends_record s s.ledBytes
    exact ⟨_, o, ho, hw, rfl⟩
  | clear =>
    obtain ⟨o, ho, hw⟩ := encodeAndWrite_appends_record s.zeroFill s.zeroFill.ledBytes
    exact ⟨_, o, ho, hw, rfl⟩
  | encPx _ | encNode _ | devInit _ | construct | setNode _ _ | getNode _ => cases htr

end Sys2Proof.Machine
end

section
/-!
PROOFS of spec/30_encoding.md: the layout of the 16 waveform bytes of a channel byte.
-/
namespace Sys2Proof.Machine

/-- Settles O7: `encodePx_length` gives the 16 bytes and `encodePx_getElem?` the two bytes of each position, whose
`bitPattern` is the pattern that the statement writes out. -/
theorem pixelEncodingLayout : Obligations.PixelEncodingLayout := by
  unfold Obligations.PixelEncodingLayout
  intro cfg v
  exact ⟨encodePx_length cfg v, fun b hb => encodePx_getElem? cfg v b hb⟩

end Sys2Proof.Machine
end

section
/-!
PROOFS of spec/40_pixel_encoder.md: which pattern stands at a position of an encoded channel byte.
-/
namespace Sys2Proof.Machine

/-- The two bytes of position `b` are the pattern of bit `7 - b`, cut out as one slice. -/
theorem encodePx_slice (cfg : Config) (v : Byte) (b : Nat) (hb : b < 8) :
    ((encodePx cfg v).drop (2 * b)).take 2 = (bitPattern cfg (v.getLsbD (7 - b))).bytes := by
  obtain ⟨hfst, hsnd⟩ := encodePx_getElem? cfg v b hb
  simp [List.take_add_one, hfst, hsnd, Pattern.bytes]

/-- Distinct patterns tell a set bit from a clear one (spec/00_scope.md R10). -/
theorem bitPattern_bytes_eq_one_iff {cfg : Config} (h : cfg.one ≠ cfg.zero) (x : Bool) :
    (bitPattern cfg x).bytes = cfg.one.bytes ↔ x = true := by
  cases x with
  | true => simp [bitPattern]
  | false =>
    have hne : cfg.zero.bytes ≠ cfg.one.bytes := fun he => h (Pattern_ext_bytes he).symm
    simpa [bitPattern] using hne

/-- Settles O8: the slice of position `b` is the pattern of bit `7 - b`, which is `ONE` for a set bit alone and `ZERO` for
a clear one. -/
theorem pixelUnitIsOneIffBitSet : Obligations.PixelUnitIsOneIffBitSet := by
  unfold Obligations.PixelUnitIsOneIffBitSet
  intro cfg v b hne hb
  rw [encodePx_slice cfg v b hb]
  exact ⟨bitPattern_bytes_eq_one_iff hne _, fun hclear => by simp [hclear, bitPattern]⟩

end Sys2Proof.Machine
end

section
/-!
PROOFS of spec/41_node_encoder.md: the length and the channel order of an encoded node.
-/
namespace Sys2Proof.Machine

/-- Settles O10: a node is encoded as a frame is (spec/30_encoding.md R52), so `encodeFrame_length` gives its length and
`encodeFrame_slice`, by induction on the channels, the 16 bytes of channel `j`. -/
theorem nodeEncodingLayout : Obligations.NodeEncodingLayout := by
  unfold Obligations.NodeEncodingLayout
  intro cfg vs hlen
  rw [encodeNode_eq_encodeFrame, ← hlen]
  exact ⟨encodeFrame_length cfg vs, encodeFrame_slice cfg vs⟩

end Sys2Proof.Machine
end

section
/-!
PROOFS of spec/42_device_contract.md: what the two transmit operations of the host's own device leave.
-/
namespace Sys2Proof.Machine

/-- An initialised device that the host owns admits raw bytes of every length (spec/60_exceptions.md R132). -/
theorem exec_devWriteRaw_of_ready {s : State} (h : s.TransmitReady) (bytes : List Byte) :
    exec (.devWriteRaw bytes) s = .next (s.transmit bytes) := by
  obtain ⟨⟨hfault, hphase, hopen⟩, hinit⟩ := h
  have hadmit : tableRefusal s (.devWriteRaw bytes) = none := by simp [tableRefusal, hphase, hopen, hinit]
  exact exec_next_iff.2 ⟨hfault, hadmit, rfl⟩

/-- An initialised device that the host owns admits raw channel bytes of exactly its size (spec/60_exceptions.md R132). -/
theorem exec_devEncWrite_of_ready {s : State} {raw : List Byte} (h : s.TransmitReady) (hlen : raw.length = s.cap) :
    exec (.devEncWrite raw) s = .next (s.encodeAndWrite raw) := by
  obtain ⟨⟨hfault, hphase, hopen⟩, hinit⟩ := h
  have hadmit : tableRefusal s (.devEncWrite raw) = none := by simp [tableRefusal, hphase, hopen, hinit, hlen]
  exact exec_next_iff.2 ⟨hfault, hadmit, rfl⟩

/-- A transmit that the port fails: the record keeps the count, the error has the length (spec/42_device_contract.md R94). -/
theorem transmit_of_failed {s : State} {bytes : List Byte} {k : Nat} {rest : List PortOutcome}
    (hk : k ≤ bytes.length) (h : s.answers = .failed k :: rest) :
    s.transmit bytes = { s with
      wire := s.wire ++ [⟨bytes, .failed k⟩], answers := rest,
      results := s.results ++ [.transmissionError bytes.length], pc := s.pc + 1 } := by
  have hanswered : s.answered = { s with answers := rest } := by simp [State.answered, h]
  have hout : s.portOutcome bytes.length = .failed k := by rw [portOutcome_of_answers h, clampOutcome_failed hk]
  simp [State.transmit, State.portWrite, State.returned, transmitResult, hanswered, hout]

/-- Encode and write, written out where the buffer has the length and the padding of the raw bytes given: the frame stands
in `TXBUF` and is what the one record and the error's length are about (spec/42_device_contract.md R95, R97, R99). -/
theorem encodeAndWrite_eq {s : State} {raw : List Byte} (hl : s.txbuf.length = s.cfg.bufferLen raw.length)
    (hp : s.txbuf.take s.cfg.padLen = s.cfg.pad) :
    ∃ o rest d, Possible (s.cfg.padLen + 16 * raw.length) o ∧ s.encodeAndWrite raw = { s with
      txbuf := s.cfg.pad ++ encodeFrame s.cfg raw,
      wire := s.wire ++ [⟨s.cfg.pad ++ encodeFrame s.cfg raw, o⟩], answers := rest, draws := d,
      results := s.results ++ [if o = .complete then .done else .transmissionError (s.cfg.padLen + 16 * raw.length)],
      pc := s.pc + 1 } := by
  have htx := encoded_txbuf_of_fits hl hp
  have hencoded : s.encoded raw = { s with txbuf := s.cfg.pad ++ encodeFrame s.cfg raw } := by
    rw [← htx]; rfl
  have hframe : (s.cfg.pad ++ encodeFrame s.cfg raw).length = s.cfg.padLen + 16 * raw.length := by
    rw [List.length_append, encodeFrame_length]; rfl
  obtain ⟨o, rest, d, ho, ht⟩ := transmit_eq (s.encoded raw) (s.cfg.pad ++ encodeFrame s.cfg raw)
  rw [hframe] at ho ht
  refine ⟨o, rest, d, ho, ?_⟩
  rw [State.encodeAndWrite, htx, ht, hencoded]

/-- Settles O21: the device admits `CAP` raw bytes, and its buffer, sized for `CAP`, is then the padding and the frame,
which `encodeAndWrite_eq` sends. -/
theorem devEncWriteTransmits : Obligations.DevEncWriteTransmits := by
  unfold Obligations.DevEncWriteTransmits
  intro s raw hready hbuf hlen
  obtain ⟨hl, hp⟩ := hbuf hready.2
  rw [← hlen] at hl
  obtain ⟨o, rest, d, ho, hstate⟩ := encodeAndWrite_eq hl hp
  rw [hlen] at ho hstate
  exact ⟨o, rest, d, ho, by rw [exec_devEncWrite_of_ready hready hlen, hstate]⟩

/-- Settles O20: the device admits the bytes, and `transmit_of_failed` says what the failed transmit leaves. -/
theorem errorCarriesLengthNotCount : Obligations.ErrorCarriesLengthNotCount := by
  unfold Obligations.ErrorCarriesLengthNotCount
  intro s bytes k rest hready hk hanswers
  rw [exec_devWriteRaw_of_ready hready, transmit_of_failed hk hanswers]

end Sys2Proof.Machine
end

section
/-!
PROOFS of spec/43_led_strip.md: what `GET_NODE` returns after another operation, and the frame that `WRITE` sends.
-/
namespace Sys2Proof.Machine

/-! ### Nodes of the LED Buffer -/

/-- A node just stored reads back as stored (spec/43_led_strip.md R111). -/
theorem loadNode_storeNode_same {s : State} {vs : List Byte} (hlen : vs.length = s.cfg.m) (idx : Nat) :
    (s.storeNode idx vs).loadNode idx = vs := by
  simp only [State.loadNode, State.storeNode, ← hlen, memRead_memWrite]

/-- A node ends where a later one begins, or before (spec/20_memory.md R40). -/
theorem nodeBase_add_le {cfg : Config} {p q : Nat} (h : p < q) : nodeBase cfg p + cfg.m ≤ nodeBase cfg q :=
  calc nodeBase cfg p + cfg.m = (p + 1) * cfg.m := (Nat.succ_mul p cfg.m).symm
    _ ≤ nodeBase cfg q := Nat.mul_le_mul_right cfg.m h

/-- The bytes of two nodes are apart: an address of one lies below or above the other (spec/20_memory.md R40). -/
theorem nodeBase_apart {cfg : Config} {k idx a : Nat} (hne : k ≠ idx) (hlo : nodeBase cfg k ≤ a)
    (hhi : a < nodeBase cfg k + cfg.m) : a < nodeBase cfg idx ∨ nodeBase cfg idx + cfg.m ≤ a := by
  rcases Nat.lt_or_gt_of_ne hne with hlt | hgt
  · exact .inl (lt_of_lt_of_le hhi (nodeBase_add_le hlt))
  · exact .inr (le_trans (nodeBase_add_le hgt) hlo)

/-- Storing a node leaves what every other node reads as (spec/43_led_strip.md R111). -/
theorem loadNode_storeNode_other {s : State} {vs : List Byte} {k idx : Nat} (hlen : vs.length = s.cfg.m)
    (hne : k ≠ idx) : (s.storeNode idx vs).loadNode k = s.loadNode k := by
  refine memRead_congr fun a hlo hhi => memGet_memWrite_outside _ _ _ a ?_
  rw [hlen]
  exact nodeBase_apart hne hlo hhi

/-! ### What `GET_NODE` returns -/

/-- On a strip an index in range is read, without a fault (spec/43_led_strip.md R108). -/
theorem exec_getNode_of_ready {s : State} {k : Nat} (h : s.StripReady) (hk : k < s.cfg.nodes) :
    exec (.getNode k) s = .next (s.returned (.bytes (s.loadNode k))) := by
  obtain ⟨hfault, hphase⟩ := h
  obtain ⟨-, -, hadmit⟩ := tableRefusal_strip hphase
  exact exec_next_iff.2 ⟨hfault, hadmit k, by simp [effectOf, indexOut, hk]⟩

/-- `GET_NODE` returns exactly the node the strip holds. -/
theorem exec_getNode_returns_iff {s : State} {k : Nat} (h : s.StripReady) (hk : k < s.cfg.nodes) (bs : List Byte) :
    exec (.getNode k) s = .next { s with results := s.results ++ [.bytes bs], pc := s.pc + 1 } ↔ s.loadNode k = bs := by
  rw [exec_getNode_of_ready h hk]
  simp [State.returned]

/-- Two strips that hold the same node return the same bytes for it. -/
theorem exec_getNode_returns_congr {s t : State} {k : Nat} (hs : s.StripReady) (ht : t.StripReady)
    (hks : k < s.cfg.nodes) (hkt : k < t.cfg.nodes) (hload : t.loadNode k = s.loadNode k) (bs : List Byte) :
    exec (.getNode k) s = .next { s with results := s.results ++ [.bytes bs], pc := s.pc + 1 } ↔
      exec (.getNode k) t = .next { t with results := t.results ++ [.bytes bs], pc := t.pc + 1 } := by
  rw [exec_getNode_returns_iff hs hks, exec_getNode_returns_iff ht hkt, hload]

/-! ### What the other operations leave of a strip -/

/-- `SET_NODE` of an index in range stores the node and returns (spec/43_led_strip.md R107). -/
theorem exec_setNode_next {s t : State} {idx : Nat} {vs : List Byte} (hidx : idx < s.cfg.nodes)
    (h : exec (.setNode idx vs) s = .next t) : t = (s.storeNode idx vs).returned .done := by
  obtain ⟨-, -, rfl⟩ := exec_next_iff.1 h
  simp [effectOf, indexOut, hidx]

/-- Every operation but `CONSTRUCT`, `SET_NODE` and `CLEAR` leaves the configuration, the phase and the LED Buffer
(spec/43_led_strip.md R111, spec/44_operation_laws.md R120). -/
theorem effectOf_keeps_strip {i : Instr} (hop : i.op ∉ [Op.construct, .setNode, .clear]) (s : State) :
    (effectOf i s).cfg = s.cfg ∧ (effectOf i s).phase = s.phase ∧ (effectOf i s).ledbuf = s.ledbuf := by
  cases i with
  | encPx _ | encNode _ | devInit _ => exact ⟨rfl, rfl, rfl⟩
  | devWriteRaw _ => simp [effectOf]
  | devEncWrite _ | write => simp [effectOf, State.encodeAndWrite]
  | getNode k => cases hout : indexOut s.cfg k <;> simp [effectOf, hout]
  | construct | setNode _ _ | clear => simp [Instr.op] at hop

/-- Settles O31: the node stored reads back, the other nodes' bytes are apart from it, and every operation but the three
named leaves the LED Buffer as it was. -/
theorem readAfterWrite : Obligations.ReadAfterWrite := by
  unfold Obligations.ReadAfterWrite
  refine ⟨fun s t idx vs hready hlen hidx hset => ?_, fun i s t hready hop hnext hfault k bs hk => ?_⟩
  · obtain rfl := exec_setNode_next hidx hset
    have hready' : ((s.storeNode idx vs).returned .done).StripReady := hready
    refine ⟨(exec_getNode_returns_iff hready' hidx vs).2 (loadNode_storeNode_same hlen idx), fun k bs hk hne => ?_⟩
    exact exec_getNode_returns_congr hready hready' hk hk (loadNode_storeNode_other hlen hne) bs
  · obtain ⟨-, -, rfl⟩ := exec_next_iff.1 hnext
    obtain ⟨hcfg, hphase, hled⟩ := effectOf_keeps_strip hop s
    have hload : (effectOf i s).loadNode k = s.loadNode k := by simp only [State.loadNode, hcfg, hled]
    exact exec_getNode_returns_congr hready ⟨hfault, hphase.trans hready.2⟩ hk (hcfg ▸ hk) hload bs

/-! ### The frame of `WRITE` -/

@[simp] theorem State.ledBytes_length (s : State) : s.ledBytes.length = s.cfg.ledLen := memRead_length ..

/-- The buffer of a strip has the length and the padding that the whole LED Buffer needs (spec/10_state.md R31). -/
theorem txbuf_fits_ledBytes {s : State} (hbuf : s.BufferOk) (hstrip : s.StripOk) (hphase : s.phase = .owned) :
    s.txbuf.length = s.cfg.bufferLen s.ledBytes.length ∧ s.txbuf.take s.cfg.padLen = s.cfg.pad := by
  obtain ⟨-, hinit, hcap⟩ := hstrip hphase
  rw [State.ledBytes_length, ← hcap]
  exact hbuf hinit

/-- `WRITE` appends one record, of the padding and the encoding of the LED Buffer (spec/43_led_strip.md R113). -/
theorem exec_write_appends_frame {s t : State} (hinv : s.Inv) (hready : s.StripReady) (h : exec .write s = .next t) :
    ∃ o, t.wire = s.wire ++ [⟨s.cfg.pad ++ encodeFrame s.cfg s.ledBytes, o⟩] := by
  obtain ⟨-, hbuf, hstrip, -⟩ := hinv
  obtain ⟨hl, hp⟩ := txbuf_fits_ledBytes hbuf hstrip hready.2
  obtain ⟨o, rest, d, -, hstate⟩ := encodeAndWrite_eq hl hp
  obtain ⟨-, -, rfl⟩ := exec_next_iff.1 h
  exact ⟨o, congrArg State.wire hstate⟩

/-- Strips that agree on the configuration and on each of the `N` bytes hold the same LED Buffer. -/
theorem ledBytes_congr {s s' : State} (hcfg : s.cfg = s'.cfg)
    (hmem : ∀ a, a < s.cfg.ledLen → memGet s.ledbuf a = memGet s'.ledbuf a) : s.ledBytes = s'.ledBytes := by
  unfold State.ledBytes
  rw [← hcfg]
  exact memRead_congr fun a _ ha => hmem a (by omega)

/-- Settles O34: each strip sends the padding and the encoding of its LED Buffer, and the two LED Buffers are one. -/
theorem frameDependsOnBufferAlone : Obligations.FrameDependsOnBufferAlone := by
  unfold Obligations.FrameDependsOnBufferAlone
  intro s s' t t' hinv hinv' hready hready' hcfg hmem hwrite hwrite'
  obtain ⟨o, hwire⟩ := exec_write_appends_frame hinv hready hwrite
  obtain ⟨o', hwire'⟩ := exec_write_appends_frame hinv' hready' hwrite'
  rw [← hcfg, ← ledBytes_congr hcfg hmem] at hwire'
  exact ⟨o, o', hwire, hwire'⟩

end Sys2Proof.Machine
end

section
/-!
PROOFS of spec/60_exceptions.md: what `CONSTRUCT` reports of a device that failed to open, and how the index fault is taken.
-/
namespace Sys2Proof.Machine

/-! ### `CONSTRUCT` -/

/-- Before a strip exists `CONSTRUCT` is admitted, whether or not the device opened (spec/60_exceptions.md R132). -/
theorem exec_construct_of_bare {s : State} (hfault : s.fault = none) (hphase : s.phase = .bare) :
    exec .construct s = .next (effectOf .construct s) := by
  have hadmit : tableRefusal s .construct = none := by simp [tableRefusal, hphase]
  exact exec_next_iff.2 ⟨hfault, hadmit, rfl⟩

/-- The effect of `CONSTRUCT` on a device that failed to open is its result alone (spec/43_led_strip.md R106). -/
theorem effectOf_construct_of_openFailed {s : State} (h : s.devOpen = .openFailed) :
    effectOf .construct s = s.returned .constructionError := by
  simp [effectOf, h]

/-- The effect of `CONSTRUCT` on an opened device is the strip built around it (spec/43_led_strip.md R106). -/
theorem effectOf_construct_of_opened {s : State} (h : s.devOpen = .opened) :
    effectOf .construct s = s.constructed.returned .done := by
  simp [effectOf, h]

/-- Building the strip is not yet a result: the host has received what it had before. -/
@[simp] theorem State.constructed_results (s : State) : s.constructed.results = s.results := rfl

/-- Settles O25: `CONSTRUCT` is admitted in phase `Bare`, and whether the device opened decides between its two effects. -/
theorem constructReportsOpenFailure : Obligations.ConstructReportsOpenFailure := by
  unfold Obligations.ConstructReportsOpenFailure
  intro s hfault hphase
  rw [exec_construct_of_bare hfault hphase]
  refine ⟨fun hfailed => ?_, fun hne => ?_⟩
  · rw [effectOf_construct_of_openFailed hfailed]
    rfl
  · have hopened : s.devOpen = .opened := by
      cases ho : s.devOpen with
      | opened => rfl
      | openFailed => exact absurd ho hne
    exact ⟨_, rfl, by simp [effectOf_construct_of_opened hopened]⟩

/-! ### The index fault -/

/-- A strip admits `SET_NODE` of `M` bytes at every index, in range or not (spec/60_exceptions.md R132). -/
theorem exec_setNode_of_ready {s : State} {vs : List Byte} (h : s.StripReady) (hlen : vs.length = s.cfg.m) (idx : Nat) :
    exec (.setNode idx vs) s = .next (effectOf (.setNode idx vs) s) := by
  obtain ⟨hfault, hphase⟩ := h
  have hadmit : tableRefusal s (.setNode idx vs) = none := by simp [tableRefusal, hphase, hlen]
  exact exec_next_iff.2 ⟨hfault, hadmit, rfl⟩

/-- On a strip `SET_NODE` of an index out of range takes the fault before any write (spec/60_exceptions.md R126). -/
theorem exec_setNode_of_indexOut {s : State} {idx : Nat} {vs : List Byte} (h : s.StripReady) (hlen : vs.length = s.cfg.m)
    (hidx : s.cfg.nodes ≤ idx) : exec (.setNode idx vs) s = .next (s.raised (.indexOutOfBounds idx)) := by
  rw [exec_setNode_of_ready h hlen]
  simp [effectOf, indexOut, hidx]

/-- On a strip `GET_NODE` of an index out of range takes the fault (spec/60_exceptions.md R126). -/
theorem exec_getNode_of_indexOut {s : State} {idx : Nat} (h : s.StripReady) (hidx : s.cfg.nodes ≤ idx) :
    exec (.getNode idx) s = .next (s.raised (.indexOutOfBounds idx)) := by
  obtain ⟨hfault, hphase⟩ := h
  obtain ⟨-, -, hadmit⟩ := tableRefusal_strip hphase
  exact exec_next_iff.2 ⟨hfault, hadmit idx, by simp [effectOf, indexOut, hidx]⟩

/-- Settles O28: out of range both operations take the fault; in range one stores the node and the other reads it, and
neither touches `FAULT`. -/
theorem indexFaultEntry : Obligations.IndexFaultEntry := by
  unfold Obligations.IndexFaultEntry
  intro s idx vs hready hlen
  refine ⟨fun hout => ⟨exec_setNode_of_indexOut hready hlen hout, exec_getNode_of_indexOut hready hout⟩, fun hin => ?_⟩
  have hset := exec_setNode_of_ready hready hlen idx
  rw [exec_setNode_next hin hset] at hset
  exact ⟨⟨_, hset, hready.1⟩, _, exec_getNode_of_ready hready hin, hready.1⟩

end Sys2Proof.Machine
end

section
/-!
PROOFS of spec/70_reset_and_hazards.md: what reset leaves, and that the LED Buffer cannot be reached from there.
-/
namespace Sys2Proof.Machine

/-- Before anything is sent nothing is known of the strip (spec/10_state.md R27). -/
@[simp] theorem phys_nil (cfg : Config) : phys cfg [] = .unknown := rfl

/-- Before a strip exists row 3 of the table holds for every operation on the LED Buffer, `SET_NODE` once its node has
`M` bytes (spec/60_exceptions.md R132). -/
theorem tableRefusal_bare {s : State} (h : s.phase = .bare) :
    (∀ idx vs, vs.length = s.cfg.m → tableRefusal s (.setNode idx vs) = some .noStrip) ∧
    (∀ idx, tableRefusal s (.getNode idx) = some .noStrip) ∧
    tableRefusal s .write = some .noStrip ∧ tableRefusal s .clear = some .noStrip := by
  simp +contextual [tableRefusal, h]

/-- Until `CONSTRUCT` the LED Buffer is unreachable: every operation on it is refused, whatever the device and the buffers
hold (spec/10_state.md R30). -/
theorem ledBuffer_unreachable_of_bare {s : State} (hfault : s.fault = none) (hphase : s.phase = .bare) :
    (∀ idx vs, vs.length = s.cfg.m → exec (.setNode idx vs) s = .refused .noStrip) ∧
    (∀ idx, exec (.getNode idx) s = .refused .noStrip) ∧
    exec .write s = .refused .noStrip ∧ exec .clear s = .refused .noStrip := by
  obtain ⟨hset, hget, hwrite, hclear⟩ := tableRefusal_bare hphase
  exact ⟨fun idx vs hlen => exec_refused_iff.2 ⟨hfault, hset idx vs hlen⟩,
    fun idx => exec_refused_iff.2 ⟨hfault, hget idx⟩,
    exec_refused_iff.2 ⟨hfault, hwrite⟩, exec_refused_iff.2 ⟨hfault, hclear⟩⟩

/-- Settles O49: the fields are those of `State.resetWith`, the strip is `Unknown` because nothing has been sent, and the
LED Buffer is unreachable because no strip exists. -/
theorem resetValues : Obligations.ResetValues := by
  unfold Obligations.ResetValues
  refine ⟨fun cfg o => ?_, Config.reference, .opened, rfl⟩
  have hunreachable := ledBuffer_unreachable_of_bare (s := State.resetWith cfg o) rfl rfl
  exact ⟨rfl, rfl, rfl, rfl, rfl, rfl, phys_nil cfg, hunreachable⟩

end Sys2Proof.Machine
end

section
/-!
PROOFS of spec/30_encoding.md, Part B: decoder and encoder are inverse to each other, and nothing else decodes.
-/
namespace Sys2Proof

/-! ### Decoding -/

/-- The decoder accepts a command exactly where its first byte is an opcode whose operand readers leave no byte over. -/
theorem decode_cons_ok_iff {cfg : Config} {b : Byte} {bs : List Byte} {i : Instr} :
    decode cfg (b :: bs) = .ok i ↔ ∃ o, Op.ofCode? b = some o ∧ readOperands cfg o bs = some (i, []) := by
  rw [decode]
  cases hop : Op.ofCode? b with
  | none => simp
  | some o =>
    rcases hread : readOperands cfg o bs with _ | ⟨j, _ | ⟨c, cs⟩⟩ <;> simp [hread]

/-- Settles O1: the opcode byte names the operation, whose operand readers undo its operand writers. -/
theorem decodeEncodeAgree : Obligations.DecodeEncodeAgree := by
  unfold Obligations.DecodeEncodeAgree
  intro cfg i hwf
  have hread := readOperands_encode hwf []
  rw [List.append_nil] at hread
  exact decode_cons_ok_iff.2 ⟨i.op, Op.ofCode?_code i.op, hread⟩

/-- Settles O2: an accepted command has an opcode byte, and `readOperands_some` says what its operand bytes are. -/
theorem decodeAcceptsOnlyEncodings : Obligations.DecodeAcceptsOnlyEncodings := by
  unfold Obligations.DecodeAcceptsOnlyEncodings
  intro cfg cmd i h
  cases cmd with
  | nil => cases h
  | cons b bs =>
    obtain ⟨o, hop, hread⟩ := decode_cons_ok_iff.1 h
    obtain ⟨rfl, hwf, hbs⟩ := readOperands_some hread
    exact ⟨hwf, by simp [encode, Op.code_of_ofCode? hop, hbs]⟩

/-- An opcode byte names one operation. -/
theorem Op.code_injective : Function.Injective Op.code := fun o p h =>
  Option.some.inj (by rw [← Op.ofCode?_code o, h, Op.ofCode?_code])

/-- No command is another command with bytes after it: the operand readers find the same end in both
(spec/30_encoding.md R62). -/
theorem encode_append_cancel {cfg : Config} {i j : Instr} {rest : List Byte} (hi : i.WellFormed cfg)
    (hj : j.WellFormed cfg) (h : encode i = encode j ++ rest) : rest = [] := by
  obtain ⟨hcode, hoperands⟩ : i.op.code = j.op.code ∧ encodeOperands i = encodeOperands j ++ rest := List.cons.inj h
  have hop : i.op = j.op := Op.code_injective hcode
  have hread := readOperands_encode hi []
  rw [List.append_nil, hop, hoperands, readOperands_encode hj rest] at hread
  exact (Prod.mk.inj (Option.some.inj hread)).2

/-- A command cut short spells nothing: what decodes is a whole command. -/
theorem decode_take_ne_ok {cfg : Config} {i j : Instr} {n : Nat} (hi : i.WellFormed cfg) (hn : n < (encode i).length) :
    decode cfg ((encode i).take n) ≠ .ok j := by
  intro h
  obtain ⟨hj, henc⟩ := decodeAcceptsOnlyEncodings cfg _ j h
  have hrest : (encode i).drop n = [] :=
    encode_append_cancel hi hj (by rw [henc, List.take_append_drop])
  rw [List.drop_eq_nil_iff] at hrest
  omega

/-- An opcode byte outside the map spells nothing (spec/30_encoding.md R60, R61). -/
theorem decode_unknown_ne_ok {cfg : Config} {b : Byte} {bs : List Byte} {j : Instr}
    (hb : b ∉ ([0x10, 0x20, 0x30, 0x31, 0x32, 0x40, 0x41, 0x42, 0x43, 0x44] : List Byte)) :
    decode cfg (b :: bs) ≠ .ok j := by
  intro h
  obtain ⟨o, hop, -⟩ := decode_cons_ok_iff.1 h
  obtain rfl := Op.code_of_ofCode? hop
  cases o <;> exact hb (by decide)

end Sys2Proof

namespace Sys2Proof.Machine

/-- A step that reaches a command which spells no operation is refused (spec/60_exceptions.md R132 row 1). -/
theorem step_of_not_decoded {s : State} {cmd : Command} (hfault : s.fault = none) (hshape : s.cfg.WellShaped)
    (hframe : s.cfg.Framable) (hcmd : s.program[s.pc]? = some cmd) (hno : ∀ i, decode s.cfg cmd ≠ .ok i) :
    step s = .refused .invalidEncoding := by
  cases hdec : decode s.cfg cmd with
  | ok i => exact absurd hdec (hno i)
  | error e =>
    have hfetch : fetch s = .rejected .invalidEncoding := by
      simp only [fetch, State.nextCommand, hfault, if_pos (And.intro hshape hframe), hcmd, hdec]
    simp [step, hfetch]

/-- Settles O5: each of the three forms spells no operation, for a reason of its own. -/
theorem invalidEncodingsRefused : Obligations.InvalidEncodingsRefused := by
  unfold Obligations.InvalidEncodingsRefused
  intro s cmd hfault hshape hframe hcmd hform
  refine step_of_not_decoded hfault hshape hframe hcmd fun j => ?_
  rcases hform with rfl | ⟨b, bs, rfl, hb⟩ | ⟨i, n, hwf, hn, rfl⟩
  · simp [decode]
  · exact decode_unknown_ne_ok hb
  · exact decode_take_ne_ok hwf hn

/-- Settles O3: each operation's operand bytes, counted; a node has the configuration's `M`. -/
theorem commandLengths : Obligations.CommandLengths := by
  unfold Obligations.CommandLengths
  intro cfg i hwf
  cases i with
  | encPx _ | devInit _ | construct | write | clear | getNode _ => rfl
  | encNode vs =>
    have hlen : vs.length = cfg.m := of_decide_eq_true hwf
    simp [encode, encodeOperands, Instr.op, Op.commandLength, hlen]; omega
  | setNode idx vs =>
    have hlen : vs.length = cfg.m := (of_decide_eq_true hwf).2
    simp [encode, encodeOperands, Instr.op, Op.commandLength, hlen]; omega
  | devWriteRaw bytes | devEncWrite bytes =>
    simp [encode, encodeOperands, Instr.op, Op.commandLength]; omega

/-- Settles O4: the decoder, run on each of the ten commands. -/
theorem spelledCommandsDecode : Obligations.SpelledCommandsDecode :=
  ⟨rfl, rfl, rfl, rfl, rfl, rfl, rfl, rfl, rfl, rfl⟩

/-- Settles O6: the count of an error is carried as `BE32`, whose value is the count. -/
theorem resultFraming : Obligations.ResultFraming := by
  unfold Obligations.ResultFraming
  refine ⟨rfl, rfl, fun _ => rfl, fun len hlen => ?_⟩
  exact ⟨_, _, _, _, by rw [resultBytes, if_pos hlen, be32], be32Value_be32 len hlen⟩

end Sys2Proof.Machine
end

section
/-!
PROOFS of spec/60_exceptions.md: the table of refusals, read as what each operation asks of a state.
-/
namespace Sys2Proof.Machine

/-! ### What an admitted operation may rely on -/

theorem phase_ne_owned {p : Phase} : p ≠ .owned ↔ p = .bare := by cases p <;> decide
theorem phase_ne_bare {p : Phase} : p ≠ .bare ↔ p = .owned := by cases p <;> decide
theorem devOpen_ne_openFailed {o : DevOpen} : o ≠ .openFailed ↔ o = .opened := by cases o <;> decide

/-- A list of conditions gives no refusal exactly where none of them holds. -/
theorem firstRefusal_eq_none_iff {conditions : List (Bool × Refusal)} :
    firstRefusal conditions = none ↔ ∀ c ∈ conditions, c.1 = false := by
  induction conditions with
  | nil => simp
  | cons c rest ih =>
    obtain ⟨b, r⟩ := c
    cases b <;> simp [ih]

/-- An operation is admitted exactly where none of the conditions it checks holds. -/
theorem tableRefusal_eq_none_iff {i : Instr} {s : State} :
    tableRefusal s i = none ↔ ∀ c ∈ conditionsOf i s, c.1 = false := by
  rw [← firstRefusal_conditionsOf, firstRefusal_eq_none_iff]

theorem tableRefusal_encNode_none {s : State} {vs : List Byte} :
    tableRefusal s (.encNode vs) = none ↔ vs.length = s.cfg.m := by
  simp [tableRefusal_eq_none_iff, conditionsOf, nodeLengthBad]

theorem tableRefusal_devInit_none {s : State} {c : Nat} :
    tableRefusal s (.devInit c) = none ↔ s.phase = .bare ∧ s.devOpen = .opened := by
  simp [tableRefusal_eq_none_iff, conditionsOf, State.deviceConditions, phase_ne_owned, devOpen_ne_openFailed]

theorem tableRefusal_devWriteRaw_none {s : State} {bytes : List Byte} :
    tableRefusal s (.devWriteRaw bytes) = none ↔ s.phase = .bare ∧ s.devOpen = .opened ∧ s.init = true := by
  simp [tableRefusal_eq_none_iff, conditionsOf, State.deviceConditions, State.notInitYet, phase_ne_owned,
    devOpen_ne_openFailed]

theorem tableRefusal_devEncWrite_none {s : State} {raw : List Byte} :
    tableRefusal s (.devEncWrite raw) = none ↔
      s.phase = .bare ∧ s.devOpen = .opened ∧ s.init = true ∧ raw.length = s.cap := by
  simp [tableRefusal_eq_none_iff, conditionsOf, State.deviceConditions, State.notInitYet, rawLengthBad, phase_ne_owned,
    devOpen_ne_openFailed]

theorem tableRefusal_construct_none {s : State} : tableRefusal s .construct = none ↔ s.phase = .bare := by
  simp [tableRefusal_eq_none_iff, conditionsOf, phase_ne_owned]

theorem tableRefusal_setNode_none {s : State} {idx : Nat} {vs : List Byte} :
    tableRefusal s (.setNode idx vs) = none ↔ vs.length = s.cfg.m ∧ s.phase = .owned := by
  simp [tableRefusal_eq_none_iff, conditionsOf, nodeLengthBad, State.noStripYet, phase_ne_bare]

theorem tableRefusal_getNode_none {s : State} {idx : Nat} :
    tableRefusal s (.getNode idx) = none ↔ s.phase = .owned := by
  simp [tableRefusal_eq_none_iff, conditionsOf, State.noStripYet, phase_ne_bare]

theorem tableRefusal_write_none {s : State} : tableRefusal s .write = none ↔ s.phase = .owned := by
  simp [tableRefusal_eq_none_iff, conditionsOf, State.noStripYet, phase_ne_bare]

theorem tableRefusal_clear_none {s : State} : tableRefusal s .clear = none ↔ s.phase = .owned := by
  simp [tableRefusal_eq_none_iff, conditionsOf, State.noStripYet, phase_ne_bare]

/-- The table reads five components of a state and no other. -/
theorem tableRefusal_congr {s t : State} (hcfg : t.cfg = s.cfg) (hphase : t.phase = s.phase)
    (hopen : t.devOpen = s.devOpen) (hinit : t.init = s.init) (hcap : t.cap = s.cap) (i : Instr) :
    tableRefusal t i = tableRefusal s i := by
  simp only [tableRefusal, hcfg, hphase, hopen, hinit, hcap]

/-! ### Refused, admitted, faulted -/

/-- Settles O42: what `exec` refuses is what the table refuses, and a fault answered is one already recorded. -/
theorem refusalsFollowTable : Obligations.RefusalsFollowTable := by
  unfold Obligations.RefusalsFollowTable
  intro i s hfault
  refine ⟨fun r => ?_, fun f hf => ?_⟩
  · rw [exec_refused_iff, and_iff_right hfault]
  · rw [exec_fault_iff, hfault] at hf
    cases hf

/-- Settles O43: an admitted operation answers its effect. -/
theorem admittedOperationsComplete : Obligations.AdmittedOperationsComplete := by
  unfold Obligations.AdmittedOperationsComplete
  exact fun i s hfault hadmit => ⟨effectOf i s, exec_next_iff.2 ⟨hfault, hadmit, rfl⟩⟩

/-- Settles O46: a recorded fault is found before the command is read, and before an operation checks anything else. -/
theorem faultedBlockPerformsNothing : Obligations.FaultedBlockPerformsNothing := by
  unfold Obligations.FaultedBlockPerformsNothing
  intro s f hfault
  have hfetch : fetch s = .stopped f := by simp only [fetch, hfault]
  exact ⟨by simp only [step, hfetch], fun i => exec_fault_iff.2 hfault⟩

end Sys2Proof.Machine
end

section
/-!
PROOFS of spec/44_operation_laws.md: what each operation leaves unchanged.
-/
namespace Sys2Proof.Machine

/-! ### The composed updates, component by component -/

@[simp] theorem State.encodeAndWrite_cfg (s : State) (raw : List Byte) : (s.encodeAndWrite raw).cfg = s.cfg :=
  (s.encoded raw).transmit_cfg _
@[simp] theorem State.encodeAndWrite_phase (s : State) (raw : List Byte) : (s.encodeAndWrite raw).phase = s.phase :=
  (s.encoded raw).transmit_phase _
@[simp] theorem State.encodeAndWrite_devOpen (s : State) (raw : List Byte) :
    (s.encodeAndWrite raw).devOpen = s.devOpen := (s.encoded raw).transmit_devOpen _
@[simp] theorem State.encodeAndWrite_fault (s : State) (raw : List Byte) : (s.encodeAndWrite raw).fault = s.fault :=
  (s.encoded raw).transmit_fault _
@[simp] theorem State.encodeAndWrite_ledbuf (s : State) (raw : List Byte) :
    (s.encodeAndWrite raw).ledbuf = s.ledbuf := (s.encoded raw).transmit_ledbuf _
@[simp] theorem State.encodeAndWrite_init (s : State) (raw : List Byte) : (s.encodeAndWrite raw).init = s.init :=
  (s.encoded raw).transmit_init _
@[simp] theorem State.encodeAndWrite_cap (s : State) (raw : List Byte) : (s.encodeAndWrite raw).cap = s.cap :=
  (s.encoded raw).transmit_cap _
@[simp] theorem State.encodeAndWrite_program (s : State) (raw : List Byte) :
    (s.encodeAndWrite raw).program = s.program := (s.encoded raw).transmit_program _
@[simp] theorem State.encodeAndWrite_pc (s : State) (raw : List Byte) : (s.encodeAndWrite raw).pc = s.pc + 1 :=
  (s.encoded raw).transmit_pc _
@[simp] theorem State.encodeAndWrite_results (s : State) (raw : List Byte) : (s.encodeAndWrite raw).results =
    s.results ++
      [transmitResult (s.encoded raw).txbuf.length ((s.encoded raw).portOutcome (s.encoded raw).txbuf.length)] :=
  (s.encoded raw).transmit_results _

@[simp] theorem State.constructed_cfg (s : State) : s.constructed.cfg = s.cfg := rfl
@[simp] theorem State.constructed_devOpen (s : State) : s.constructed.devOpen = s.devOpen := rfl
@[simp] theorem State.constructed_fault (s : State) : s.constructed.fault = s.fault := rfl
@[simp] theorem State.constructed_ledbuf (s : State) : s.constructed.ledbuf = s.zeroFill.ledbuf := rfl
@[simp] theorem State.constructed_wire (s : State) : s.constructed.wire = s.wire := rfl
@[simp] theorem State.constructed_program (s : State) : s.constructed.program = s.program := rfl
@[simp] theorem State.constructed_pc (s : State) : s.constructed.pc = s.pc := rfl
@[simp] theorem State.constructed_answers (s : State) : s.constructed.answers = s.answers := rfl

/-! ### Frames -/

/-- Settles O37: a next state is the operation's effect, and each effect is a few updates whose components are known. -/
theorem operationFrames : Obligations.OperationFrames := by
  unfold Obligations.OperationFrames
  intro i s t h
  obtain ⟨-, -, rfl⟩ := exec_next_iff.1 h
  cases i with
  | encPx _ | encNode _ | devInit _ | devWriteRaw _ => simp [effectOf, Instr.op, transmits]
  | devEncWrite _ | write | clear => simp [effectOf, Instr.op, transmits]
  | construct => cases ho : s.devOpen <;> simp [effectOf, Instr.op, transmits, ho]
  | setNode idx _ | getNode idx => cases hout : indexOut s.cfg idx <;> simp [effectOf, Instr.op, transmits, hout]

/-- Settles O38: the three operations that store write to the bytes named and no other; the frame of the LED Buffer covers
the rest. -/
theorem storedBytesOnly : Obligations.StoredBytesOnly := by
  unfold Obligations.StoredBytesOnly
  intro i s t h a ha
  obtain ⟨hled, -⟩ := operationFrames i s t h
  obtain ⟨-, -, rfl⟩ := exec_next_iff.1 h
  have hfill (hout : s.cfg.ledLen ≤ a) : memGet s.zeroFill.ledbuf a = memGet s.ledbuf a :=
    memGet_memWrite_outside _ _ _ a (.inr (by simpa using hout))
  cases i with
  | setNode idx vs => cases hout : indexOut s.cfg idx <;> simp [effectOf, hout, memGet_memWrite_outside _ _ _ a ha]
  | construct =>
    cases ho : s.devOpen with
    | openFailed => simp [effectOf_construct_of_openFailed ho]
    | opened => simpa [effectOf_construct_of_opened ho] using hfill ha
  | clear => simpa [effectOf] using hfill ha
  | encPx _ | encNode _ | devInit _ | devWriteRaw _ | devEncWrite _ | write | getNode _ => rw [hled (by simp [Instr.op])]

/-- Settles O44: a transmit operation leaves every component the table reads. -/
theorem transmitKeepsAdmission : Obligations.TransmitKeepsAdmission := by
  unfold Obligations.TransmitKeepsAdmission
  intro i j s t htr h
  obtain ⟨-, -, hdev, hphase, -, hfault, hcfg, hopen, -⟩ := operationFrames i s t h
  obtain ⟨hnone, -, -⟩ := exec_next_iff.1 h
  have hop : i.op ∉ [Op.devInit, .construct] ∧ i.op ≠ .construct ∧ i.op ∉ [Op.setNode, .getNode] := by
    cases i with
    | devWriteRaw _ | devEncWrite _ | write | clear => simp [Instr.op]
    | encPx _ | encNode _ | devInit _ | construct | setNode _ _ | getNode _ => cases htr
  obtain ⟨hopDev, hopPhase, hopFault⟩ := hop
  obtain ⟨hcap, hinit⟩ := hdev hopDev
  exact ⟨(hfault hopFault).trans hnone, tableRefusal_congr hcfg (hphase hopPhase) hopen hinit hcap j⟩

end Sys2Proof.Machine
end

section
/-!
PROOFS of spec/10_state.md, sections 2 and 6: the index, and the results the host receives.
-/
namespace Sys2Proof.Machine

/-- `SET_NODE` takes the fault where the index is out of range, and stores the node where it is in range
(spec/43_led_strip.md R107). -/
theorem effectOf_setNode_cases (idx : Nat) (vs : List Byte) (s : State) :
    (s.cfg.nodes ≤ idx ∧ effectOf (.setNode idx vs) s = s.raised (.indexOutOfBounds idx)) ∨
    (idx < s.cfg.nodes ∧ effectOf (.setNode idx vs) s = (s.storeNode idx vs).returned .done) := by
  by_cases hidx : s.cfg.nodes ≤ idx
  · exact .inl ⟨hidx, by simp [effectOf, indexOut, hidx]⟩
  · exact .inr ⟨not_le.1 hidx, by simp [effectOf, indexOut, hidx]⟩

/-- `GET_NODE` takes the fault where the index is out of range, and reads the node where it is in range
(spec/43_led_strip.md R108). -/
theorem effectOf_getNode_cases (idx : Nat) (s : State) :
    (s.cfg.nodes ≤ idx ∧ effectOf (.getNode idx) s = s.raised (.indexOutOfBounds idx)) ∨
    (idx < s.cfg.nodes ∧ effectOf (.getNode idx) s = s.returned (.bytes (s.loadNode idx))) := by
  by_cases hidx : s.cfg.nodes ≤ idx
  · exact .inl ⟨hidx, by simp [effectOf, indexOut, hidx]⟩
  · exact .inr ⟨not_le.1 hidx, by simp [effectOf, indexOut, hidx]⟩

/-- An operation returns one result, or takes the index fault (spec/60_exceptions.md R125). -/
theorem effectOf_returns_or_raises (i : Instr) (s : State) :
    ((effectOf i s).pc = s.pc + 1 ∧ (effectOf i s).fault = s.fault ∧ ∃ r, (effectOf i s).results = s.results ++ [r]) ∨
    ∃ idx, s.cfg.nodes ≤ idx ∧ effectOf i s = s.raised (.indexOutOfBounds idx) := by
  cases i with
  | encPx _ | encNode _ | devInit _ | devWriteRaw _ | devEncWrite _ | write | clear => simp [effectOf]
  | construct => cases ho : s.devOpen <;> simp [effectOf, ho]
  | setNode idx vs =>
    rcases effectOf_setNode_cases idx vs s with ⟨hidx, heq⟩ | ⟨-, heq⟩
    · exact .inr ⟨idx, hidx, heq⟩
    · simp [heq]
  | getNode idx =>
    rcases effectOf_getNode_cases idx s with ⟨hidx, heq⟩ | ⟨-, heq⟩
    · exact .inr ⟨idx, hidx, heq⟩
    · simp [heq]

/-- Settles O40: an operation that answers a next state ran unfaulted, and returned or took the fault. -/
theorem oneResultPerOperation : Obligations.OneResultPerOperation := by
  unfold Obligations.OneResultPerOperation
  intro i s t h
  obtain ⟨hnone, -, rfl⟩ := exec_next_iff.1 h
  rcases effectOf_returns_or_raises i s with ⟨hpc, hfault, hres⟩ | ⟨idx, hidx, heq⟩
  · exact .inl ⟨hpc, hfault.trans hnone, hres⟩
  · rw [heq]
    exact .inr ⟨rfl, rfl, idx, rfl, hidx⟩

end Sys2Proof.Machine
end

section
/-!
PROOFS of spec/10_state.md, section 2, and spec/70_reset_and_hazards.md, section 3: what a step does with the host's next
command, and which components no step writes.
-/
namespace Sys2Proof.Machine

/-! ### What a step finds -/

/-- Settles O45: nothing stops the fetch before the command, and the command decodes. -/
theorem stepRunsDecodedInstruction : Obligations.StepRunsDecodedInstruction := by
  unfold Obligations.StepRunsDecodedInstruction
  intro s cmd i hfault hshape hframe hcmd hdec
  have hfetch : fetch s = .operation i := by
    simp only [fetch, State.nextCommand, hfault, if_pos (And.intro hshape hframe), hcmd, hdec]
  simp only [step, hfetch]

/-- Settles O47: an index at or past the end of the list reads no command. -/
theorem idleAtEndOfList : Obligations.IdleAtEndOfList := by
  unfold Obligations.IdleAtEndOfList
  intro s hfinal hshape hframe
  obtain ⟨hfault, hend⟩ := hfinal
  have hnone : s.program[s.pc]? = none := List.getElem?_eq_none hend
  have hfetch : fetch s = .idle := by
    simp only [fetch, State.nextCommand, hfault, if_pos (And.intro hshape hframe), hnone]
  simp only [step, hfetch]

/-- Settles O48: each of the four conditions denies the check that the fetch makes. -/
theorem badConfigurationRefused : Obligations.BadConfigurationRefused := by
  unfold Obligations.BadConfigurationRefused
  intro s hfault hbad
  have hdenied : ¬ (s.cfg.WellShaped ∧ s.cfg.Framable) := by
    rintro ⟨⟨hm, hnodes, hpatterns⟩, hframe⟩
    rw [Config.Framable, frameLen_eq] at hframe
    rcases hbad with heq | hm0 | hnodes0 | hlen
    · exact hpatterns heq
    · omega
    · omega
    · omega
  have hfetch : fetch s = .rejected .badConfiguration := by simp only [fetch, hfault, if_neg hdenied]
  simp only [step, hfetch]

/-! ### What a step leaves -/

/-- Settles O52: an idle step appends nothing, a transmit operation one record, every other operation none. -/
theorem wireOnlyGrows : Obligations.WireOnlyGrows := by
  unfold Obligations.WireOnlyGrows
  intro s t h
  rcases step_next h with ⟨-, rfl⟩ | ⟨i, -, hexec⟩
  · exact ⟨[], by simp⟩
  · obtain ⟨hsends, hquiet⟩ := onePortOperationPerTransmit i s t hexec
    cases htr : transmits i with
    | true =>
      obtain ⟨bytes, o, -, hwire, -⟩ := hsends htr
      exact ⟨[⟨bytes, o⟩], hwire, le_rfl⟩
    | false => exact ⟨[], by simp [hquiet htr]⟩

/-- Settles O54: no operation writes the two, and an idle step writes nothing. -/
theorem configurationNeverWritten : Obligations.ConfigurationNeverWritten := by
  unfold Obligations.ConfigurationNeverWritten
  intro s t h
  rcases step_next h with ⟨-, rfl⟩ | ⟨i, -, hexec⟩
  · exact ⟨rfl, rfl⟩
  · obtain ⟨-, -, -, -, -, -, hcfg, hopen, -⟩ := operationFrames i s t hexec
    exact ⟨hcfg, hopen⟩

theorem op_eq_construct_iff {i : Instr} : i.op = .construct ↔ i = .construct := by
  cases i <;> simp [Instr.op]

/-- `CONSTRUCT` runs in phase `Bare` alone, and takes the device only where it opened (spec/43_led_strip.md R106). -/
theorem exec_construct_phase {s t : State} (h : exec .construct s = .next t) :
    s.phase = .bare ∧ (t.phase = .owned → s.devOpen = .opened) := by
  obtain ⟨-, hadmit, rfl⟩ := exec_next_iff.1 h
  have hbare := tableRefusal_construct_none.1 hadmit
  refine ⟨hbare, fun howned => ?_⟩
  cases ho : s.devOpen with
  | opened => rfl
  | openFailed => simp [effectOf_construct_of_openFailed ho, hbare] at howned

/-- Settles O53: every operation but `CONSTRUCT` keeps the phase, and `exec_construct_phase` says what `CONSTRUCT` does. -/
theorem phaseChangesOnlyByConstruct : Obligations.PhaseChangesOnlyByConstruct := by
  unfold Obligations.PhaseChangesOnlyByConstruct
  intro s t h
  rcases step_next h with ⟨-, rfl⟩ | ⟨i, hfetch, hexec⟩
  · exact ⟨id, fun hbare howned => by simp [hbare] at howned⟩
  · obtain ⟨-, -, -, cmd, hcmd, hdec⟩ := fetch_operation hfetch
    by_cases hop : i.op = .construct
    · obtain rfl := op_eq_construct_iff.1 hop
      obtain ⟨hbare, hopened⟩ := exec_construct_phase hexec
      exact ⟨fun howned => by simp [hbare] at howned, fun _ howned => ⟨hopened howned, cmd, hcmd, hdec⟩⟩
    · obtain ⟨-, -, -, hphase, -⟩ := operationFrames i s t hexec
      rw [hphase hop]
      exact ⟨id, fun hbare howned => by simp [hbare] at howned⟩

end Sys2Proof.Machine
end

section
/-!
PROOFS of spec/10_state.md, sections 7 and 8: the invariant holds at reset, and every update an operation is made of keeps it.
-/
namespace Sys2Proof.Machine

/-! ### Reset -/

/-- Every state the spec allows right after reset meets the invariant: no strip, no device in use, nothing sent. -/
theorem State.IsReset.inv {s : State} (h : s.IsReset) : s.Inv := by
  obtain ⟨hphase, hfault, hinit, htx, hwire, hpc, hres, hled⟩ := h
  refine ⟨hled, ?_, ?_, ?_, fun _ => ⟨htx, hwire⟩, ?_, ?_, ?_⟩
  · simp [State.BufferOk, hinit]
  · simp [State.StripOk, hphase]
  · simp [State.DeviceOk, hinit]
  · simp [State.WireOk, hwire]
  · simp [State.FaultOk, hfault, faultIndexOk]
  · simp [State.HostOk, hres, hpc]

/-- The model's reset states are among those the spec allows. -/
theorem resetWith_isReset (cfg : Config) (o : DevOpen) : (State.resetWith cfg o).IsReset :=
  ⟨rfl, rfl, rfl, rfl, rfl, rfl, rfl, ⟨.nil, by simp [State.resetWith]⟩, by simp [State.resetWith]⟩

/-- Settles O50: the two facts above, at the model's own reset state too. -/
theorem resetMeetsInvariant : Obligations.ResetMeetsInvariant :=
  ⟨fun _ h => h.inv, resetWith_isReset, (resetWith_isReset _ _).inv⟩

/-! ### The parts of the invariant that operations rely on -/

theorem State.Inv.bufferOk {s : State} (h : s.Inv) : s.BufferOk := by
  obtain ⟨-, hbuf, -⟩ := h
  exact hbuf

theorem State.Inv.stripOk {s : State} (h : s.Inv) : s.StripOk := by
  obtain ⟨-, -, hstrip, -⟩ := h
  exact hstrip

/-! ### The updates keep the invariant -/

/-- A result received and the index moved on keep step with each other. -/
theorem returned_inv {s : State} (h : s.Inv) (r : Result) : (s.returned r).Inv := by
  obtain ⟨hled, hbuf, hstrip, hdev, huninit, hwire, hfault, hhost⟩ := h
  refine ⟨hled, hbuf, hstrip, hdev, huninit, hwire, hfault, ?_⟩
  simpa [State.HostOk] using hhost

/-- The fault taken is an index outside the nodes of a strip. -/
theorem raised_inv {s : State} (h : s.Inv) {idx : Nat} (hphase : s.phase = .owned) (hidx : s.cfg.nodes ≤ idx) :
    (s.raised (.indexOutOfBounds idx)).Inv := by
  obtain ⟨hled, hbuf, hstrip, hdev, huninit, hwire, -, hhost⟩ := h
  refine ⟨hled, hbuf, hstrip, hdev, huninit, hwire, ?_, hhost⟩
  simp [State.FaultOk, faultIndexOk, hphase, hidx]

/-- A write inside the `N` bytes keeps the form of the LED Buffer and its bounds. -/
theorem memWrite_ledOk {s : State} (h : s.LedOk) {addr : Nat} {bs : List Byte} (hfit : addr + bs.length ≤ s.cfg.ledLen) :
    ({ s with ledbuf := memWrite s.ledbuf addr bs } : State).LedOk := by
  obtain ⟨hwf, hbound⟩ := h
  refine ⟨memWrite_wf hwf addr bs, fun c hc => ?_⟩
  rcases mem_memWrite hc with ⟨-, hlt⟩ | hmem
  · exact lt_of_lt_of_le hlt hfit
  · exact hbound c hmem

/-- The bytes of a node in range end within the LED Buffer (spec/20_memory.md R40). -/
theorem nodeBase_add_le_ledLen {cfg : Config} {idx : Nat} (h : idx < cfg.nodes) :
    nodeBase cfg idx + cfg.m ≤ cfg.ledLen :=
  nodeBase_add_le h

theorem storeNode_inv {s : State} (h : s.Inv) {idx : Nat} {vs : List Byte} (hlen : vs.length = s.cfg.m)
    (hidx : idx < s.cfg.nodes) : (s.storeNode idx vs).Inv := by
  obtain ⟨hled, hrest⟩ := h
  exact ⟨memWrite_ledOk hled (hlen ▸ nodeBase_add_le_ledLen hidx), hrest⟩

theorem zeroFill_inv {s : State} (h : s.Inv) : s.zeroFill.Inv := by
  obtain ⟨hled, hrest⟩ := h
  exact ⟨memWrite_ledOk hled (by simp), hrest⟩

/-- A buffer just sized has its length and its padding. A strip's device is not sized again: the host must own the device
(spec/60_exceptions.md R132 row 4). -/
theorem sized_inv {s : State} (h : s.Inv) (hphase : s.phase = .bare) (hopen : s.devOpen = .opened) (c : Nat) :
    (s.sized c).Inv := by
  obtain ⟨hled, -, -, -, -, hwire, hfault, hhost⟩ := h
  refine ⟨hled, fun _ => ⟨?_, ?_⟩, ?_, fun _ => hopen, ?_, hwire, hfault, hhost⟩
  · simp [bufferLen_eq, Config.padLen]
  · simp [Config.padLen]
  · simp [State.StripOk, hphase]
  · simp [State.UninitOk]

/-- An opened device sized for the whole LED Buffer may become a strip's. -/
theorem taken_inv {s : State} (h : s.Inv) (hnone : s.fault = none) (hinit : s.init = true)
    (hcap : s.cap = s.cfg.ledLen) : s.taken.Inv := by
  obtain ⟨hled, hbuf, -, hdev, huninit, hwire, -, hhost⟩ := h
  refine ⟨hled, hbuf, fun _ => ⟨hdev hinit, hinit, hcap⟩, hdev, huninit, hwire, ?_, hhost⟩
  simp [State.FaultOk, hnone, faultIndexOk]

/-- Taking the device and sizing its buffer touch different components. -/
theorem constructed_eq (s : State) : s.constructed = (s.sized s.cfg.ledLen).taken.zeroFill := rfl

theorem constructed_inv {s : State} (h : s.Inv) (hnone : s.fault = none) (hphase : s.phase = .bare)
    (hopen : s.devOpen = .opened) : s.constructed.Inv := by
  rw [constructed_eq]
  exact zeroFill_inv (taken_inv (sized_inv h hphase hopen _) hnone rfl rfl)

/-- Encoding as many bytes as the buffer is sized for leaves its length and its padding. -/
theorem encoded_inv {s : State} (h : s.Inv) (hinit : s.init = true) {raw : List Byte} (hlen : raw.length = s.cap) :
    (s.encoded raw).Inv := by
  obtain ⟨hled, hbuf, hstrip, hdev, -, hwire, hfault, hhost⟩ := h
  obtain ⟨hl, hp⟩ := hbuf hinit
  have htx := encoded_txbuf_of_fits (hlen ▸ hl) hp
  refine ⟨hled, fun _ => ?_, hstrip, hdev, ?_, hwire, hfault, hhost⟩
  · rw [htx]
    simp [bufferLen_eq, Config.padLen, hlen]
  · simp [State.UninitOk, hinit]

/-- A possible outcome puts no more bytes on the wire than were handed over (spec/42_device_contract.md R88). -/
theorem Possible.bounded {bytes : List Byte} {o : PortOutcome} (h : Possible bytes.length o) :
    Transfer.Bounded ⟨bytes, o⟩ := by
  rcases h with rfl | ⟨k, hk, rfl⟩
  · exact le_rfl
  · exact hk

/-- One more record, of an initialised device, with an outcome the port may have. -/
theorem transmit_inv {s : State} (h : s.Inv) (hinit : s.init = true) (bytes : List Byte) : (s.transmit bytes).Inv := by
  obtain ⟨hled, hbuf, hstrip, hdev, -, hwire, hfault, hhost⟩ := h
  obtain ⟨o, ho, hrecord⟩ := transmit_appends_record s bytes
  refine ⟨?_, ?_, ?_, ?_, ?_, ?_, ?_, ?_⟩
  · simpa [State.LedOk] using hled
  · simpa [State.BufferOk] using hbuf
  · simpa [State.StripOk] using hstrip
  · simpa [State.DeviceOk] using hdev
  · simp [State.UninitOk, hinit]
  · intro t ht
    rw [hrecord, List.mem_append, List.mem_singleton] at ht
    rcases ht with hold | rfl
    · exact hwire t hold
    · exact Possible.bounded ho
  · simpa [State.FaultOk] using hfault
  · simpa [State.HostOk] using hhost

theorem encodeAndWrite_inv {s : State} (h : s.Inv) (hinit : s.init = true) {raw : List Byte}
    (hlen : raw.length = s.cap) : (s.encodeAndWrite raw).Inv :=
  transmit_inv (encoded_inv h hinit hlen) hinit _

/-- On a strip the LED Buffer has exactly the length the buffer is sized for. -/
theorem encodeAndWrite_ledBytes_inv {s : State} (h : s.Inv) (hphase : s.phase = .owned) :
    (s.encodeAndWrite s.ledBytes).Inv := by
  obtain ⟨-, hinit, hcap⟩ := h.stripOk hphase
  exact encodeAndWrite_inv h hinit (by rw [State.ledBytes_length, hcap])

/-! ### Every step keeps the invariant -/

/-- Every operation that the table admits keeps the invariant. -/
theorem effectOf_inv {i : Instr} {s : State} (h : s.Inv) (hnone : s.fault = none) (hadmit : tableRefusal s i = none) :
    (effectOf i s).Inv := by
  cases i with
  | encPx _ | encNode _ => exact returned_inv h _
  | devInit c =>
    obtain ⟨hphase, hopen⟩ := tableRefusal_devInit_none.1 hadmit
    exact returned_inv (sized_inv h hphase hopen c) _
  | devWriteRaw bytes =>
    obtain ⟨-, -, hinit⟩ := tableRefusal_devWriteRaw_none.1 hadmit
    exact transmit_inv h hinit bytes
  | devEncWrite raw =>
    obtain ⟨-, -, hinit, hlen⟩ := tableRefusal_devEncWrite_none.1 hadmit
    exact encodeAndWrite_inv h hinit hlen
  | construct =>
    have hphase := tableRefusal_construct_none.1 hadmit
    cases ho : s.devOpen with
    | openFailed => rw [effectOf_construct_of_openFailed ho]; exact returned_inv h _
    | opened => rw [effectOf_construct_of_opened ho]; exact returned_inv (constructed_inv h hnone hphase ho) _
  | setNode idx vs =>
    obtain ⟨hlen, hphase⟩ := tableRefusal_setNode_none.1 hadmit
    rcases effectOf_setNode_cases idx vs s with ⟨hidx, heq⟩ | ⟨hidx, heq⟩
    · rw [heq]; exact raised_inv h hphase hidx
    · rw [heq]; exact returned_inv (storeNode_inv h hlen hidx) _
  | getNode idx =>
    have hphase := tableRefusal_getNode_none.1 hadmit
    rcases effectOf_getNode_cases idx s with ⟨hidx, heq⟩ | ⟨-, heq⟩
    · rw [heq]; exact raised_inv h hphase hidx
    · rw [heq]; exact returned_inv h _
  | write => exact encodeAndWrite_ledBytes_inv h (tableRefusal_write_none.1 hadmit)
  | clear => exact encodeAndWrite_ledBytes_inv (zeroFill_inv h) (tableRefusal_clear_none.1 hadmit)

/-- Settles O51: an idle step changes nothing, and every other step is the effect of an admitted operation. -/
theorem stepKeepsInvariant : Obligations.StepKeepsInvariant := by
  unfold Obligations.StepKeepsInvariant
  intro s t hinv h
  rcases step_next h with ⟨-, rfl⟩ | ⟨i, -, hexec⟩
  · exact hinv
  · obtain ⟨hnone, hadmit, rfl⟩ := exec_next_iff.1 hexec
    exact effectOf_inv hinv hnone hadmit

end Sys2Proof.Machine
end

section
/-!
PROOFS of spec/30_encoding.md, Part A: the layout of a frame, and the inverse of the waveform encoding.
-/
namespace Sys2Proof.Machine

/-! ### Layout -/

/-- Byte `j` of the encoding of raw byte `i` stands at offset `16 * i + j`. -/
theorem encodeFrame_getElem? {cfg : Config} {raw : List Byte} {i j : Nat} {v : Byte} (h : raw[i]? = some v)
    (hj : j < 16) : (encodeFrame cfg raw)[16 * i + j]? = (encodePx cfg v)[j]? := by
  rw [← encodeFrame_slice cfg raw i v h, List.getElem?_take_of_lt hj, List.getElem?_drop]

/-- Behind the padding every byte of the frame is at its own offset. -/
theorem padded_getElem? (cfg : Config) (bytes : List Byte) (k : Nat) :
    (cfg.pad ++ bytes)[cfg.padLen + k]? = bytes[k]? := by
  rw [Config.padLen, List.getElem?_append_right (Nat.le_add_right ..), Nat.add_sub_cancel_left]

/-- Settles O11: the padding, then at `16 * i` the encoding of raw byte `i`, in which position `b` stands at `2 * b`. -/
theorem frameLayout : Obligations.FrameLayout := by
  unfold Obligations.FrameLayout
  intro cfg raw
  refine ⟨by simp [Config.padLen], List.take_left, fun i v b hv hb => ?_⟩
  obtain ⟨hfst, hsnd⟩ := encodePx_getElem? cfg v b hb
  rw [Nat.add_assoc, Nat.add_assoc (cfg.padLen), Nat.add_assoc (16 * i), padded_getElem?, padded_getElem?,
    encodeFrame_getElem? hv (by omega), encodeFrame_getElem? hv (by omega)]
  exact ⟨hfst, hsnd⟩

/-- The first `n` blocks of `m` bytes, read at once or block by block. -/
theorem memRead_blocks (mem : Memory) (m n : Nat) :
    memRead mem 0 (n * m) = (List.range n).flatMap fun idx => memRead mem (idx * m) m := by
  induction n with
  | zero => simp [memRead]
  | succ n ih => rw [Nat.succ_mul, memRead_append, ih, List.range_succ, List.flatMap_append]; simp

/-- Settles O12: the LED Buffer is its nodes in order, and encoding goes byte by byte. -/
theorem frameIsNodesInOrder : Obligations.FrameIsNodesInOrder := by
  unfold Obligations.FrameIsNodesInOrder
  intro s
  have hnodes : s.ledBytes = (List.range s.cfg.nodes).flatMap s.loadNode := memRead_blocks s.ledbuf s.cfg.m s.cfg.nodes
  rw [hnodes, encodeFrame, List.flatMap_assoc]
  rfl

/-! ### The inverse -/

/-- Settles O13: decoding is unit by unit and then bit by bit, each the inverse of its encoding. -/
theorem payloadDecodeEncodeAgree : Obligations.PayloadDecodeEncodeAgree := by
  unfold Obligations.PayloadDecodeEncodeAgree
  intro cfg payload raw hne
  refine ⟨fun h => ?_, ?_⟩
  · rw [decodePayload] at h
    split at h
    · rename_i xs hunits
      rw [encodeFrame_bits, ← packBytes_some xs raw h]
      exact decodeUnits_some payload xs hunits
    · cases h
  · rintro rfl
    rw [decodePayload, encodeFrame_bits, decodeUnits_bits hne]
    exact packBytes_units raw

/-- A frame determines its raw bytes, since decoding recovers them. -/
theorem encodeFrame_injective {cfg : Config} (hne : cfg.one ≠ cfg.zero) : Function.Injective (encodeFrame cfg) := by
  intro raw raw' h
  have hdec := (payloadDecodeEncodeAgree cfg (encodeFrame cfg raw) raw hne).2 rfl
  have hdec' := (payloadDecodeEncodeAgree cfg (encodeFrame cfg raw) raw' hne).2 h
  exact Option.some.inj (hdec.symm.trans hdec')

/-- Settles O9: the encoding of a channel byte is the frame of that byte alone. -/
theorem encodingInjective : Obligations.EncodingInjective := by
  unfold Obligations.EncodingInjective
  intro cfg hne
  refine ⟨fun v w h => ?_, fun raw raw' _ h => encodeFrame_injective hne h⟩
  have hframe : encodeFrame cfg [v] = encodeFrame cfg [w] := by simpa [encodeFrame_cons] using h
  exact (List.cons.inj (encodeFrame_injective hne hframe)).1

/-! ### Valid payloads -/

/-- The waveform bytes of a bit sequence, unit by unit (spec/30_encoding.md R50). -/
def bitsWave (cfg : Config) (xs : List Bool) : List Byte := xs.flatMap fun x => (bitPattern cfg x).bytes

theorem bitsWave_cons (cfg : Config) (x : Bool) (xs : List Bool) :
    bitsWave cfg (x :: xs) = (bitPattern cfg x).bytes ++ bitsWave cfg xs := rfl

/-- A frame is the waveform of its bits. -/
theorem encodeFrame_eq_bitsWave (cfg : Config) (raw : List Byte) :
    encodeFrame cfg raw = bitsWave cfg (raw.flatMap byteUnits) := encodeFrame_bits cfg raw

/-- Bit `t` of a sequence stands in pair `t` of its waveform. -/
theorem bitsWave_pair {cfg : Config} {xs : List Bool} {t : Nat} {x : Bool} (h : xs[t]? = some x) :
    ((bitsWave cfg xs).drop (2 * t)).take 2 = (bitPattern cfg x).bytes := by
  induction xs generalizing t with
  | nil => cases h
  | cons y ys ih =>
    rw [bitsWave_cons]
    cases t with
    | zero => obtain rfl := Option.some.inj h; rfl
    | succ t => exact ih h

/-- A pair is a unit exactly when it is the pattern of some bit. -/
theorem exists_bitPattern_iff {cfg : Config} {pair : List Byte} :
    (∃ x, pair = (bitPattern cfg x).bytes) ↔ pair = cfg.one.bytes ∨ pair = cfg.zero.bytes := by
  simp [bitPattern, or_comm]

/-- A byte sequence whose pairs are all units is the waveform of a bit sequence. -/
theorem exists_bits_of_pairs {cfg : Config} {payload : List Byte} {n : Nat} (hlen : payload.length = 2 * n)
    (h : ∀ t, t < n → ∃ x, (payload.drop (2 * t)).take 2 = (bitPattern cfg x).bytes) :
    ∃ xs, xs.length = n ∧ payload = bitsWave cfg xs := by
  induction n generalizing payload with
  | zero => exact ⟨[], rfl, List.eq_nil_of_length_eq_zero hlen⟩
  | succ n ih =>
    obtain ⟨x, hx⟩ := h 0 (Nat.zero_lt_succ n)
    obtain ⟨xs, hxs, hrest⟩ := ih (payload := payload.drop 2) (by rw [List.length_drop]; omega) fun t ht => by
      obtain ⟨y, hy⟩ := h (t + 1) (by omega)
      exact ⟨y, by rw [List.drop_drop, ← hy]; congr 2; omega⟩
    exact ⟨x :: xs, by simp [hxs], by rw [bitsWave_cons, ← hrest, ← hx]; exact (List.take_append_drop 2 payload).symm⟩

/-- Bits in eights are the bits of bytes. -/
theorem exists_bytes_of_bits {xs : List Bool} {c : Nat} (hlen : xs.length = 8 * c) :
    ∃ raw : List Byte, raw.length = c ∧ xs = raw.flatMap byteUnits := by
  induction c generalizing xs with
  | zero => exact ⟨[], rfl, List.eq_nil_of_length_eq_zero hlen⟩
  | succ c ih =>
    match xs, hlen with
    | x0 :: x1 :: x2 :: x3 :: x4 :: x5 :: x6 :: x7 :: rest, hlen =>
      obtain ⟨raw, hraw, rfl⟩ := ih (xs := rest) (by simp only [List.length_cons] at hlen; omega)
      exact ⟨packByte x0 x1 x2 x3 x4 x5 x6 x7 :: raw, by simp [hraw], by simp [byteUnits_packByte]⟩

theorem flatMap_byteUnits_length (raw : List Byte) : (raw.flatMap byteUnits).length = 8 * raw.length := by
  induction raw with
  | nil => rfl
  | cons v raw ih => simp [ih]; omega

/-- Settles O14: pairs that are units spell bits, and bits in eights spell bytes; conversely each bit of a frame stands in a
pair of its own. -/
theorem validPayloadIffUnits : Obligations.ValidPayloadIffUnits := by
  unfold Obligations.ValidPayloadIffUnits
  intro cfg payload c hlen
  constructor
  · intro hpairs
    obtain ⟨xs, hxs, rfl⟩ := exists_bits_of_pairs (n := 8 * c) (by omega) fun t ht =>
      exists_bitPattern_iff.2 (hpairs t ht)
    obtain ⟨raw, hraw, rfl⟩ := exists_bytes_of_bits hxs
    exact ⟨raw, hraw, encodeFrame_eq_bitsWave cfg raw⟩
  · rintro ⟨raw, rfl, rfl⟩ t ht
    have hbit := List.getElem?_eq_getElem ((flatMap_byteUnits_length raw).symm ▸ ht)
    rw [encodeFrame_eq_bitsWave, bitsWave_pair hbit]
    exact exists_bitPattern_iff.1 ⟨_, rfl⟩

end Sys2Proof.Machine
end

section
/-!
PROOFS of spec/40_pixel_encoder.md and spec/41_node_encoder.md: what `ENC_PX` and `ENC_NODE` return.
-/
namespace Sys2Proof.Machine

/-- Settles O15: no condition is checked, and each bit of the byte decides its pattern. -/
theorem encPxReturnsWaveform : Obligations.EncPxReturnsWaveform := by
  unfold Obligations.EncPxReturnsWaveform
  intro s v hfault
  have hwave : encodePx s.cfg v =
      (List.range 8).flatMap fun b => if v.getLsbD (7 - b) then s.cfg.one.bytes else s.cfg.zero.bytes := by
    simp only [encodePx, bitsPerPx, encodeUnit, pat_bitAt, apply_ite Pattern.bytes]
  rw [← hwave]
  exact exec_next_iff.2 ⟨hfault, rfl, rfl⟩

/-- Settles O16: the length of the node decides between the result and the refusal. -/
theorem encNodeReturnsWaveform : Obligations.EncNodeReturnsWaveform := by
  unfold Obligations.EncNodeReturnsWaveform
  intro s vs hfault
  refine ⟨fun hlen => ?_, fun hlen => exec_refused_iff.2 ⟨hfault, by simp [tableRefusal, hlen]⟩⟩
  rw [← List.flatMap_def]
  exact exec_next_iff.2 ⟨hfault, tableRefusal_encNode_none.2 hlen, rfl⟩

end Sys2Proof.Machine
end

section
/-!
PROOFS of spec/42_device_contract.md, sections 2 to 4: sizing the transmission buffer, and the two transmit paths compared.
-/
namespace Sys2Proof.Machine

/-! ### `DEV_INIT` -/

/-- A device that the host owns and that opened is sized (spec/42_device_contract.md R90). -/
theorem exec_devInit_of_ready {s : State} (h : s.DeviceReady) (c : Nat) :
    exec (.devInit c) s = .next ((s.sized c).returned .done) := by
  obtain ⟨hfault, hphase, hopen⟩ := h
  exact exec_next_iff.2 ⟨hfault, tableRefusal_devInit_none.2 ⟨hphase, hopen⟩, rfl⟩

/-- Settles O17: the free payload has `16 * c` bytes. -/
theorem devInitSizesBuffer : Obligations.DevInitSizesBuffer := by
  unfold Obligations.DevInitSizesBuffer
  exact fun s c hready => ⟨freePayload s.draws c, _, freePayload_length _ c, exec_devInit_of_ready hready c⟩

/-- Settles O18: the first call leaves the device ready for the second, which only draws another payload. -/
theorem devInitIdempotent : Obligations.DevInitIdempotent := by
  unfold Obligations.DevInitIdempotent
  intro s c hready
  have hready' : ((s.sized c).returned .done).DeviceReady := hready
  refine ⟨_, _, exec_devInit_of_ready hready c, exec_devInit_of_ready hready' c, rfl, rfl, ?_, ?_, rfl, rfl, rfl, rfl⟩
  · simp
  · simp [Config.padLen]

/-! ### The transmit operations -/

/-- Settles O19: the device admits the bytes, and `transmit_eq` writes out what the transmit leaves. -/
theorem devWriteRawTransmits : Obligations.DevWriteRawTransmits := by
  unfold Obligations.DevWriteRawTransmits
  intro s bytes hready
  obtain ⟨o, rest, d, ho, heq⟩ := transmit_eq s bytes
  exact ⟨o, rest, d, ho, by rw [exec_devWriteRaw_of_ready hready, heq]⟩

/-- What a transmit leaves does not depend on the transmission buffer, which it keeps. -/
theorem transmit_encoded (s : State) (raw bytes : List Byte) :
    (s.encoded raw).transmit bytes = { s.transmit bytes with txbuf := (s.encoded raw).txbuf } := by
  cases h : s.answers <;>
    simp [State.transmit, State.portWrite, State.returned, State.answered, State.portOutcome, State.nextAnswer,
      State.encoded, h]

/-- Settles O22: both hand the padding and the frame to the port, and `transmit_encoded` says where they differ. -/
theorem rawPathEqualsEncodePath : Obligations.RawPathEqualsEncodePath := by
  unfold Obligations.RawPathEqualsEncodePath
  intro s raw hready hbuf hlen
  obtain ⟨hl, hp⟩ := hbuf hready.2
  have htx := encoded_txbuf_of_fits (hlen ▸ hl) hp
  refine ⟨_, _, exec_devEncWrite_of_ready hready hlen, exec_devWriteRaw_of_ready hready _, ?_, ?_⟩
  · rw [State.encodeAndWrite_txbuf, htx]
  · rw [State.encodeAndWrite, htx, transmit_encoded]
    rw [← State.transmit_txbuf s (s.cfg.pad ++ encodeFrame s.cfg raw)]

/-- Nodes encoded one by one are the frame of their channel bytes (spec/30_encoding.md R53). -/
theorem encodeNode_flatten (cfg : Config) (ns : List (List Byte)) :
    (ns.map (encodeNode cfg)).flatten = encodeFrame cfg ns.flatten := by
  induction ns with
  | nil => rfl
  | cons vs ns ih => rw [List.map_cons, List.flatten_cons, List.flatten_cons, encodeFrame_append, ih]; rfl

/-- Settles O23: the nodes' encodings are the frame, so this is the raw path compared with the encode path. -/
theorem preEncodedNodesSameWire : Obligations.PreEncodedNodesSameWire := by
  unfold Obligations.PreEncodedNodesSameWire
  intro s ns hready hbuf hlen
  obtain ⟨t, u, henc, hraw, -, hdiff⟩ := rawPathEqualsEncodePath s ns.flatten hready hbuf hlen
  rw [encodeNode_flatten]
  exact ⟨t, u, henc, hraw, by rw [hdiff], by rw [hdiff]⟩

end Sys2Proof.Machine
end

section
/-!
PROOFS of spec/43_led_strip.md: what each operation of a strip does, and that `CLEAR` is its expansion.
-/
namespace Sys2Proof.Machine

/-! ### The zero-filled LED Buffer -/

/-- A zero-filled LED Buffer lists nothing, since a byte equal to 0 is not listed (spec/43_led_strip.md R106). -/
theorem zeroFill_ledbuf_eq_nil {s : State} (h : s.LedOk) : s.zeroFill.ledbuf = [] := by
  obtain ⟨hwf, hbound⟩ := h
  have hfillWf : Memory.wf s.zeroFill.ledbuf := memWrite_wf hwf 0 _
  refine List.eq_nil_iff_forall_not_mem.2 fun c hc => hfillWf.2 c hc ?_
  have hlt : c.1 < s.cfg.ledLen := by
    rcases mem_memWrite hc with ⟨-, hlt⟩ | hmem
    · simpa using hlt
    · exact hbound c hmem
  rw [← memGet_of_mem hfillWf.1 hc, State.zeroFill_ledbuf, memGet_memWrite, if_pos (by simpa using hlt)]
  simp [List.getD, hlt]

/-- All `N` bytes of a zero-filled LED Buffer are 0. -/
theorem ledBytes_zeroFill (s : State) : s.zeroFill.ledBytes = List.replicate s.cfg.ledLen 0 := by
  have h := memRead_memWrite s.ledbuf 0 (List.replicate s.cfg.ledLen 0)
  rwa [List.length_replicate] at h

/-- A part of a sequence read is the sequence read from there. -/
theorem memRead_slice (mem : Memory) {addr n k j : Nat} (h : k + j ≤ n) :
    ((memRead mem addr n).drop k).take j = memRead mem (addr + k) j := by
  obtain ⟨rest, rfl⟩ := Nat.exists_eq_add_of_le h
  rw [Nat.add_assoc, memRead_append, memRead_append, List.drop_left' (memRead_length ..),
    List.take_left' (memRead_length ..)]

/-- A node in range is a slice of the whole LED Buffer (spec/10_state.md R24). -/
theorem loadNode_eq_slice {s : State} {idx : Nat} (h : idx < s.cfg.nodes) :
    s.loadNode idx = (s.ledBytes.drop (nodeBase s.cfg idx)).take s.cfg.m := by
  rw [State.ledBytes, memRead_slice _ (nodeBase_add_le_ledLen h), Nat.zero_add, State.loadNode]

/-- Every node of a zero-filled LED Buffer reads as `M` zeros. -/
theorem loadNode_zeroFill {s : State} {idx : Nat} (h : idx < s.cfg.nodes) :
    s.zeroFill.loadNode idx = List.replicate s.cfg.m 0 := by
  have hfit := nodeBase_add_le_ledLen h
  rw [loadNode_eq_slice (s := s.zeroFill) h, ledBytes_zeroFill, List.drop_replicate, List.take_replicate]
  congr 1
  exact Nat.min_eq_left (Nat.le_sub_of_add_le' hfit)

/-! ### `CONSTRUCT` -/

/-- The state a strip is built as, written out where the LED Buffer is in form. -/
theorem constructed_eq_of_ledOk {s : State} (h : s.LedOk) : s.constructed = { s with
    phase := .owned, cap := s.cfg.ledLen, txbuf := s.cfg.pad ++ freePayload s.draws s.cfg.ledLen, init := true,
    ledbuf := [], draws := s.draws + 1 } := by
  rw [← zeroFill_ledbuf_eq_nil h]
  rfl

/-- Settles O24: the device opened, so the strip is built, and the zero-filled LED Buffer lists nothing. -/
theorem constructBuildsStrip : Obligations.ConstructBuildsStrip := by
  unfold Obligations.ConstructBuildsStrip
  intro s hready hled
  obtain ⟨hfault, hphase, hopen⟩ := hready
  refine ⟨freePayload s.draws s.cfg.ledLen, s.draws + 1, freePayload_length _ _, ?_⟩
  rw [exec_construct_of_bare hfault hphase, effectOf_construct_of_opened hopen, constructed_eq_of_ledOk hled]
  rfl

/-! ### `SET_NODE` and `GET_NODE` -/

/-- On a strip an index in range is stored, without a fault (spec/43_led_strip.md R107). -/
theorem exec_setNode_of_lt {s : State} {idx : Nat} {vs : List Byte} (h : s.StripReady) (hlen : vs.length = s.cfg.m)
    (hidx : idx < s.cfg.nodes) : exec (.setNode idx vs) s = .next ((s.storeNode idx vs).returned .done) := by
  have hset := exec_setNode_of_ready h hlen idx
  rwa [exec_setNode_next hidx hset] at hset

/-- Settles O26: the node is written, and `memGet_memWrite` says what each byte then reads as. -/
theorem setNodeStores : Obligations.SetNodeStores := by
  unfold Obligations.SetNodeStores
  intro s idx vs hready hlen hidx
  refine ⟨memWrite s.ledbuf (nodeBase s.cfg idx) vs, exec_setNode_of_lt hready hlen hidx, fun j v hv => ?_, fun a ha => ?_⟩
  · exact memGet_memWrite_inside _ _ _ j v hv
  · exact memGet_memWrite_outside _ _ _ a (by rwa [hlen])

/-- Settles O27: the node read has `M` bytes, byte `j` from address `idx * M + j`. -/
theorem getNodeReads : Obligations.GetNodeReads := by
  unfold Obligations.GetNodeReads
  intro s idx hready hidx
  refine ⟨s.loadNode idx, memRead_length .., fun j hj => ?_, exec_getNode_of_ready hready hidx⟩
  exact memRead_getElem? _ _ _ j hj

/-- Writing the same bytes twice leaves what writing them once leaves. -/
theorem memWrite_memWrite_same {mem : Memory} (h : Memory.wf mem) (addr : Nat) (bs : List Byte) :
    memWrite (memWrite mem addr bs) addr bs = memWrite mem addr bs := by
  have hwf := memWrite_wf h addr bs
  refine memory_ext (memWrite_wf hwf addr bs) hwf fun a => ?_
  simp only [memGet_memWrite]
  split <;> rfl

/-- Settles O35: both calls store the same bytes at the same address. -/
theorem setNodeIdempotent : Obligations.SetNodeIdempotent := by
  unfold Obligations.SetNodeIdempotent
  intro s t u idx vs hled hidx hfirst hsecond
  obtain rfl := exec_setNode_next hidx hfirst
  have hidx' : idx < ((s.storeNode idx vs).returned .done).cfg.nodes := hidx
  obtain rfl := exec_setNode_next hidx' hsecond
  exact memWrite_memWrite_same hled.1 _ vs

/-- Settles O36: a node in range ends where the next begins, or at the end of the LED Buffer. -/
theorem nodeRangesFit : Obligations.NodeRangesFit := by
  unfold Obligations.NodeRangesFit
  exact fun cfg idx idx' hidx _ => ⟨nodeBase_add_le_ledLen hidx, nodeBase_add_le⟩

/-! ### `WRITE` and `CLEAR` -/

/-- A strip admits `WRITE` (spec/60_exceptions.md R132). -/
theorem exec_write_of_ready {s : State} (h : s.StripReady) :
    exec .write s = .next (s.encodeAndWrite s.ledBytes) :=
  exec_next_iff.2 ⟨h.1, tableRefusal_write_none.2 h.2, rfl⟩

/-- A strip admits `CLEAR` (spec/60_exceptions.md R132). -/
theorem exec_clear_of_ready {s : State} (h : s.StripReady) :
    exec .clear s = .next (s.zeroFill.encodeAndWrite s.zeroFill.ledBytes) :=
  exec_next_iff.2 ⟨h.1, tableRefusal_clear_none.2 h.2, rfl⟩

/-- What encoding and sending the whole LED Buffer of a strip leaves, written out (spec/43_led_strip.md R109). -/
theorem encodeAndWrite_ledBytes_eq {s : State} (hbuf : s.BufferOk) (hstrip : s.StripOk) (hphase : s.phase = .owned) :
    ∃ o rest d, Possible s.cfg.frameLen o ∧ s.encodeAndWrite s.ledBytes = { s with
      txbuf := s.cfg.pad ++ encodeFrame s.cfg s.ledBytes,
      wire := s.wire ++ [⟨s.cfg.pad ++ encodeFrame s.cfg s.ledBytes, o⟩], answers := rest, draws := d,
      results := s.results ++ [if o = .complete then .done else .transmissionError s.cfg.frameLen], pc := s.pc + 1 } := by
  obtain ⟨hl, hp⟩ := txbuf_fits_ledBytes hbuf hstrip hphase
  rw [Config.frameLen, bufferLen_eq, ← State.ledBytes_length]
  exact encodeAndWrite_eq hl hp

/-- Settles O29: the strip admits `WRITE`, and its buffer is sized for the whole LED Buffer. -/
theorem writeSendsFrame : Obligations.WriteSendsFrame := by
  unfold Obligations.WriteSendsFrame
  intro s hready hbuf hstrip
  obtain ⟨o, rest, d, ho, heq⟩ := encodeAndWrite_ledBytes_eq hbuf hstrip hready.2
  exact ⟨o, rest, d, ho, by rw [exec_write_of_ready hready, heq]⟩

/-- The frame of zeros is `ZERO` in every position (spec/43_led_strip.md R110). -/
theorem encodeFrame_zeros (cfg : Config) (n : Nat) :
    encodeFrame cfg (List.replicate n 0) = (List.replicate (8 * n) cfg.zero.bytes).flatten := by
  have hpx : encodePx cfg 0 = (List.replicate 8 cfg.zero.bytes).flatten := rfl
  induction n with
  | zero => rfl
  | succ n ih =>
    rw [List.replicate_succ, encodeFrame_cons, hpx, ih, ← List.flatten_append, List.replicate_append_replicate,
      Nat.mul_succ, Nat.add_comm]

/-- Settles O30: `CLEAR` sends the LED Buffer it has just zero-filled, as `WRITE` does. -/
theorem clearSendsBlankFrame : Obligations.ClearSendsBlankFrame := by
  unfold Obligations.ClearSendsBlankFrame
  intro s hready hbuf hstrip hled
  obtain ⟨o, rest, d, ho, heq⟩ := encodeAndWrite_ledBytes_eq (s := s.zeroFill) hbuf hstrip hready.2
  refine ⟨o, rest, d, ho, ?_⟩
  rw [exec_clear_of_ready hready, heq, ledBytes_zeroFill, State.zeroFill_cfg, encodeFrame_zeros,
    ← zeroFill_ledbuf_eq_nil hled]
  rfl

/-- Settles O32: the transmit leaves the zero-filled LED Buffer, in which every node reads as zeros. -/
theorem clearedNodesReadZero : Obligations.ClearedNodesReadZero := by
  unfold Obligations.ClearedNodesReadZero
  intro s t idx hready hidx hclear
  obtain ⟨-, -, rfl⟩ := exec_next_iff.1 hclear
  have hready' : (effectOf .clear s).StripReady := by simpa [effectOf, State.StripReady] using hready
  have hload : (effectOf .clear s).loadNode idx = s.zeroFill.loadNode idx := by simp [effectOf, State.loadNode]
  have hcfg : (effectOf .clear s).cfg = s.cfg := by simp [effectOf]
  rw [← loadNode_zeroFill hidx, ← hload]
  exact exec_getNode_of_ready hready' (hcfg ▸ hidx)

/-! ### The expansion of `CLEAR` -/

/-- A list of operations performed in two parts (spec/30_encoding.md R64). -/
theorem performAll_append {is js : List Instr} {s t : State} (h : performAll is s = .next t) :
    performAll (is ++ js) s = performAll js t := by
  induction is generalizing s with
  | nil => cases h; rfl
  | cons i is ih =>
    simp only [performAll, List.cons_append] at h ⊢
    cases hexec : exec i s with
    | next u => rw [hexec] at h; exact ih h
    | fault f => rw [hexec] at h; cases h
    | refused r => rw [hexec] at h; cases h

/-- One operation alone. -/
theorem performAll_singleton {i : Instr} {s t : State} (h : exec i s = .next t) : performAll [i] s = .next t := by
  simp [performAll, h]

/-- `s` where the host has received `rs` and is at index `pc` of its list. -/
def State.hostAt (s : State) (rs : List Result) (pc : Nat) : State := { s with results := rs, pc := pc }

/-- `s` with its first `n` bytes zero, after `k` operations of which each returned `Ok(())`. -/
def State.zeroedAfter (s : State) (n k : Nat) : State :=
  ({ s with ledbuf := memWrite s.ledbuf 0 (List.replicate n 0) } : State).hostAt
    (s.results ++ List.replicate k .done) (s.pc + k)

/-- With all `N` bytes zero the block is as zero-filled. -/
theorem zeroedAfter_all (s : State) : s.zeroedAfter s.cfg.ledLen s.cfg.nodes =
    s.zeroFill.hostAt (s.results ++ List.replicate s.cfg.nodes .done) (s.pc + s.cfg.nodes) := rfl

/-- Zeros on one more node extend the zeros before it. -/
theorem storeNode_zeroedAfter (s : State) (k : Nat) :
    ((s.zeroedAfter (k * s.cfg.m) k).storeNode k (List.replicate s.cfg.m 0)).returned .done =
      s.zeroedAfter ((k + 1) * s.cfg.m) (k + 1) := by
  have hmem : memWrite (memWrite s.ledbuf 0 (List.replicate (k * s.cfg.m) 0)) (nodeBase s.cfg k)
      (List.replicate s.cfg.m 0) = memWrite s.ledbuf 0 (List.replicate ((k + 1) * s.cfg.m) 0) := by
    rw [Nat.succ_mul, ← List.replicate_append_replicate, memWrite_append, List.length_replicate, Nat.zero_add, nodeBase]
  simp only [State.zeroedAfter, State.hostAt, State.storeNode, State.returned, hmem, List.replicate_succ', List.append_assoc,
    Nat.add_assoc]

/-- `SET_NODE` of zeros on the first `k` nodes in order zeroes their bytes. -/
theorem performAll_setNode_zeros {s : State} (h : s.StripReady) {k : Nat} (hk : k ≤ s.cfg.nodes) :
    performAll ((List.range k).map fun idx => .setNode idx (List.replicate s.cfg.m 0)) s =
      .next (s.zeroedAfter (k * s.cfg.m) k) := by
  induction k with
  | zero => simp [performAll, State.zeroedAfter, State.hostAt, memWrite]
  | succ k ih =>
    have hready' : (s.zeroedAfter (k * s.cfg.m) k).StripReady := h
    rw [List.range_succ, List.map_append, performAll_append (ih (by omega)), ← storeNode_zeroedAfter]
    exact performAll_singleton (exec_setNode_of_lt hready' (List.length_replicate ..) hk)

/-- The port and the buffers take no notice of what the host has received or of its index (spec/10_state.md R29). -/
theorem encodeAndWrite_hostAt (s : State) (rs : List Result) (pc : Nat) (raw : List Byte) :
    ∃ r, (s.encodeAndWrite raw).results = s.results ++ [r] ∧
      (s.hostAt rs pc).encodeAndWrite raw = (s.encodeAndWrite raw).hostAt (rs ++ [r]) (pc + 1) := by
  refine ⟨_, s.encodeAndWrite_results raw, ?_⟩
  cases h : s.answers <;>
    simp [State.encodeAndWrite, State.transmit, State.portWrite, State.returned, State.answered, State.portOutcome,
      State.nextAnswer, State.encoded, State.hostAt, h]

/-- Settles O33: after the zeros on every node the block is as zero-filled, and the final `WRITE` sends from there. -/
theorem clearIsItsExpansion : Obligations.ClearIsItsExpansion := by
  unfold Obligations.ClearIsItsExpansion
  intro s hready
  have hready' : (s.zeroedAfter s.cfg.ledLen s.cfg.nodes).StripReady := hready
  have hwrite := exec_write_of_ready hready'
  obtain ⟨r, hres, hhost⟩ := encodeAndWrite_hostAt s.zeroFill (s.results ++ List.replicate s.cfg.nodes .done)
    (s.pc + s.cfg.nodes) s.zeroFill.ledBytes
  rw [zeroedAfter_all] at hwrite
  have hall := (performAll_append (performAll_setNode_zeros hready le_rfl)).trans
    (performAll_singleton (hwrite.trans (congrArg _ hhost)))
  refine ⟨_, _, exec_clear_of_ready hready, hall, rfl, ?_⟩
  rw [hres]
  simp [State.hostAt]

end Sys2Proof.Machine
end

section
/-!
PROOFS of spec/10_state.md, section 6: which results an operation returns.
-/
namespace Sys2Proof.Machine

/-- The result of a transmit is `Ok(())` or the error with the length handed to the port (spec/60_exceptions.md R127). -/
theorem transmitResult_cases (len : Nat) (o : PortOutcome) :
    transmitResult len o = .done ∨ transmitResult len o = .transmissionError len := by
  cases o with
  | complete => exact .inl rfl
  | failed _ => exact .inr rfl

/-- The result of encode and write, where the buffer has the length and the padding of the raw bytes given. -/
theorem encodeAndWrite_result {s : State} {raw : List Byte} {r : Result}
    (hfits : s.txbuf.length = s.cfg.bufferLen raw.length ∧ s.txbuf.take s.cfg.padLen = s.cfg.pad)
    (h : (s.encodeAndWrite raw).results = s.results ++ [r]) :
    r = .done ∨ r = .transmissionError (s.cfg.bufferLen raw.length) := by
  obtain ⟨hl, hp⟩ := hfits
  have hlen : (s.encoded raw).txbuf.length = s.cfg.bufferLen raw.length := by
    rw [encoded_txbuf_of_fits hl hp, bufferLen_eq]
    simp [Config.padLen]
  rw [State.encodeAndWrite_results, hlen] at h
  obtain rfl := List.cons.inj (List.append_cancel_left h) |>.1
  exact transmitResult_cases _ _

/-- The result that an operation appends is the one the host receives. -/
theorem appended_result {rs : List Result} {r r' : Result} (h : rs ++ [r] = rs ++ [r']) : r = r' :=
  (List.cons.inj (List.append_cancel_left h)).1

/-- Settles O41: each operation appends one result, whose form the operation's effect shows; the count of an error is the
length of the buffer that was sent. -/
theorem resultKinds : Obligations.ResultKinds := by
  unfold Obligations.ResultKinds
  intro i s t r hinv h hres
  obtain ⟨-, hadmit, rfl⟩ := exec_next_iff.1 h
  cases i with
  | encPx v =>
    obtain rfl := appended_result hres
    simp [resultKind]
  | encNode vs =>
    obtain rfl := appended_result hres
    have hlen := tableRefusal_encNode_none.1 hadmit
    simp [resultKind, encodeNode_eq_encodeFrame, Config.nodeLen, hlen, Nat.mul_comm]
  | devInit c =>
    obtain rfl := appended_result hres
    rfl
  | devWriteRaw bytes =>
    obtain rfl := appended_result ((s.transmit_results bytes).symm.trans hres)
    rcases transmitResult_cases bytes.length (s.portOutcome bytes.length) with hr | hr <;> simp [hr, resultKind]
  | devEncWrite raw =>
    obtain ⟨-, -, hinit, hlen⟩ := tableRefusal_devEncWrite_none.1 hadmit
    rcases encodeAndWrite_result (hlen ▸ hinv.bufferOk hinit) hres with rfl | rfl <;> simp [resultKind, hlen]
  | construct =>
    cases ho : s.devOpen with
    | openFailed =>
      rw [effectOf_construct_of_openFailed ho] at hres
      obtain rfl := appended_result hres
      simp [resultKind, ho]
    | opened =>
      rw [effectOf_construct_of_opened ho] at hres
      obtain rfl := appended_result hres
      simp [resultKind, ho]
  | setNode idx vs =>
    rcases effectOf_setNode_cases idx vs s with ⟨-, heq⟩ | ⟨-, heq⟩
    · simp [heq] at hres
    · rw [heq] at hres
      obtain rfl := appended_result hres
      rfl
  | getNode idx =>
    rcases effectOf_getNode_cases idx s with ⟨-, heq⟩ | ⟨-, heq⟩
    · simp [heq] at hres
    · rw [heq] at hres
      obtain rfl := appended_result hres
      simp [resultKind, State.loadNode]
  | write =>
    have hfits := txbuf_fits_ledBytes hinv.bufferOk hinv.stripOk (tableRefusal_write_none.1 hadmit)
    rcases encodeAndWrite_result hfits hres with rfl | rfl <;> simp [resultKind, Config.frameLen]
  | clear =>
    have hzero := zeroFill_inv hinv
    have hfits := txbuf_fits_ledBytes hzero.bufferOk hzero.stripOk (tableRefusal_clear_none.1 hadmit)
    rcases encodeAndWrite_result hfits hres with rfl | rfl <;> simp [resultKind, Config.frameLen]

end Sys2Proof.Machine
end

section
/-!
PROOFS of spec/10_state.md, section 5: what the strip shows, as a function of `WIRE`.
-/
namespace Sys2Proof.Machine

/-- What the strip shows is what the last record leaves (spec/10_state.md R27). -/
@[simp] theorem phys_append_singleton (cfg : Config) (earlier : List Transfer) (t : Transfer) :
    phys cfg (earlier ++ [t]) = displayAfter cfg t := by
  simp [phys]

/-- The values of a frame are those it was encoded from, and nothing else is a frame (spec/30_encoding.md R55). -/
theorem frameValues_eq_some_iff {cfg : Config} {bytes v : List Byte} (hne : cfg.one ≠ cfg.zero) :
    frameValues cfg bytes = some v ↔ bytes = cfg.pad ++ encodeFrame cfg v ∧ v.length = cfg.ledLen := by
  have hpayload := payloadDecodeEncodeAgree cfg (bytes.drop cfg.padLen) v hne
  constructor
  · intro h
    rw [frameValues] at h
    split at h
    · rename_i hpad
      split at h
      · rename_i w hdec
        split at h
        · rename_i hlen
          obtain rfl := Option.some.inj h
          exact ⟨by rw [← hpayload.1 hdec, ← hpad, List.take_append_drop], hlen⟩
        · cases h
      · cases h
    · cases h
  · rintro ⟨rfl, hlen⟩
    have hdrop : (cfg.pad ++ encodeFrame cfg v).drop cfg.padLen = encodeFrame cfg v := List.drop_left
    have htake : (cfg.pad ++ encodeFrame cfg v).take cfg.padLen = cfg.pad := List.take_left
    rw [frameValues, if_pos htake, hpayload.2 hdrop]
    exact if_pos hlen

/-- A transfer leaves the strip showing `v` exactly where it is a completed frame of `v`. -/
theorem displayAfter_eq_shown_iff {cfg : Config} {t : Transfer} {v : List Byte} (hne : cfg.one ≠ cfg.zero) :
    displayAfter cfg t = .shown v ↔ t = ⟨cfg.pad ++ encodeFrame cfg v, .complete⟩ ∧ v.length = cfg.ledLen := by
  obtain ⟨bytes, o⟩ := t
  rw [Transfer.mk.injEq, and_right_comm, ← frameValues_eq_some_iff hne]
  cases o with
  | failed k => simp [displayAfter]
  | complete => cases hv : frameValues cfg bytes <;> simp [displayAfter, hv]

/-- A transfer leaves the strip undefined exactly where it failed. -/
theorem displayAfter_eq_undefined_iff {cfg : Config} {t : Transfer} :
    displayAfter cfg t = .undefined ↔ ∃ k, t.outcome = .failed k := by
  obtain ⟨bytes, o⟩ := t
  cases o with
  | failed k => simp [displayAfter]
  | complete => cases hv : frameValues cfg bytes <;> simp [displayAfter, hv]

/-- Settles O55: an empty history shows nothing, and otherwise the last record decides. -/
theorem displayDecidedByLastRecord : Obligations.DisplayDecidedByLastRecord := by
  unfold Obligations.DisplayDecidedByLastRecord
  intro cfg wire hne
  refine ⟨phys_nil cfg, ?_⟩
  rcases List.eq_nil_or_concat' wire with rfl | ⟨earlier, ⟨bytes, o⟩, rfl⟩
  · simp
  · refine ⟨fun v => ?_, ?_⟩
    · rw [phys_append_singleton, displayAfter_eq_shown_iff hne]
      simp
    · rw [phys_append_singleton, displayAfter_eq_undefined_iff]
      simp

/-- `WRITE` appends the frame of the LED Buffer with the port's next answer (spec/43_led_strip.md R109). -/
theorem encodeAndWrite_ledBytes_wire {s : State} (hinv : s.Inv) (hphase : s.phase = .owned) {a : PortOutcome}
    {rest : List PortOutcome} (h : s.answers = a :: rest) : (s.encodeAndWrite s.ledBytes).wire =
      s.wire ++ [⟨s.cfg.pad ++ encodeFrame s.cfg s.ledBytes, clampOutcome s.cfg.frameLen a⟩] := by
  obtain ⟨hl, hp⟩ := txbuf_fits_ledBytes hinv.bufferOk hinv.stripOk hphase
  have hlen : (s.cfg.pad ++ encodeFrame s.cfg s.ledBytes).length = s.cfg.frameLen := by
    simp [Config.frameLen, bufferLen_eq, Config.padLen]
  have hanswers : (s.encoded s.ledBytes).answers = a :: rest := h
  rw [State.encodeAndWrite, State.transmit_wire, encoded_txbuf_of_fits hl hp, hlen, portOutcome_of_answers hanswers,
    State.encoded_wire]

/-- Settles O56: a completed `WRITE` sends the frame of the LED Buffer, of which `GET_NODE` reads the slice displayed. -/
theorem writeUpdatesDisplay : Obligations.WriteUpdatesDisplay := by
  unfold Obligations.WriteUpdatesDisplay
  intro s a rest hinv hready hne hanswers
  have hphys : phys (s.encodeAndWrite s.ledBytes).cfg (s.encodeAndWrite s.ledBytes).wire =
      displayAfter s.cfg ⟨s.cfg.pad ++ encodeFrame s.cfg s.ledBytes, clampOutcome s.cfg.frameLen a⟩ := by
    rw [encodeAndWrite_ledBytes_wire hinv hready.2 hanswers, phys_append_singleton, State.encodeAndWrite_cfg]
  refine ⟨_, exec_write_of_ready hready, ?_⟩
  cases a with
  | complete =>
    refine ⟨s.ledBytes, hphys.trans ((displayAfter_eq_shown_iff hne).2 ⟨rfl, s.ledBytes_length⟩), fun idx hidx => ?_⟩
    have hready' : (s.encodeAndWrite s.ledBytes).StripReady := by simpa [State.StripReady] using hready
    have hload : (s.encodeAndWrite s.ledBytes).loadNode idx = displayedNode s.cfg s.ledBytes idx := by
      rw [State.loadNode, State.encodeAndWrite_ledbuf, State.encodeAndWrite_cfg]
      exact loadNode_eq_slice hidx
    rw [← hload]
    exact exec_getNode_of_ready hready' (by simpa using hidx)
  | failed k => exact hphys.trans (displayAfter_eq_undefined_iff.2 ⟨_, rfl⟩)

end Sys2Proof.Machine
end

section
/-!
PROOFS of spec/70_reset_and_hazards.md, section 5: the informative times.
-/
namespace Sys2Proof.Machine

/-- Settles O57: a waveform byte lasts 512 ns, and every other time is a count of waveform bytes. -/
theorem referenceTimes : Obligations.ReferenceTimes := by
  unfold Obligations.ReferenceTimes
  intro cfg hbit
  have hbyte : waveByteNs cfg = 512 := by simp [waveByteNs, hbit]
  simp [protocolBitNs, channelNs, nodeNs, frameNs, spiBytesPerBit, hbyte, frameLen_eq]

end Sys2Proof.Machine
end
